-- ==== Sys2Proof/Word.lean ====
section
/-! DEFINITION. The word types of the zella DDS engine: 32-bit registers, 16-bit phase indices and 40-bit event words
(spec/00_scope.md R7, R10; spec/30_encoding.md R76). -/

namespace Sys2Proof

/-- A 32-bit register of the host interface, or the DATA field of an event word (R7). -/
abbrev Word := BitVec 32

/-- A 16-bit phase index, or one half of PHASE or SAMPLE (R7). -/
abbrev Half := BitVec 16

/-- A 40-bit event word (R76). -/
abbrev EventWord := BitVec 40

end Sys2Proof
end

