-- ==== Sys2Proof/Config.lean ====
section
/-! DEFINITION. What a build of the block fixes: the five parameters of spec/00_scope.md R6, the ROM of
spec/40_sine_table.md R111 and the two platform parameters that no rule of the event model reads. -/

namespace Sys2Proof

/-- One build of the block, `zella-dds(N, R, FREQ_MIN, FREQ_MAX, FREQ_RESET)` (R1, R6), with its ROM (R100).
The ROM is a list, so that a configuration is plain data. `Config.tableOk` says that the list is a function
from `[0, N)` to `[0, 2^R)` (R111), and `Config.TableFormula` that each entry is the one of R101. -/
structure Config where
  /-- Sample count: table entries per sine period. -/
  N : Nat
  /-- DAC resolution in bits. -/
  R : Nat
  /-- FREQ_MIN, a raw SQ15.16 integer. -/
  freqMin : Int
  /-- FREQ_MAX, a raw SQ15.16 integer. -/
  freqMax : Int
  /-- FREQ_RESET, a raw SQ15.16 integer (OPEN: spec/92_eei_decisions.md D9). -/
  freqReset : Int
  /-- The sine ROM, entry 0 first. -/
  table : List Nat
  /-- CLK_HZ of the platform; no rule of the event model reads it (R243). -/
  clkHz : Nat
  /-- ZELLA_BASE of the platform; no rule of the block reads it (R57). -/
  zellaBase : Nat
  deriving DecidableEq, Repr

/-- `K = 10^6 · 2^16`, the period numerator (R7). -/
abbrev K : Int := 65536000000

/-- `M = 2^R - 1`, the largest sample code (R7). -/
def Config.M (c : Config) : Nat := 2 ^ c.R - 1

/-- `Q = N / 4`, the quarter-cycle offset in table entries (R7). -/
def Config.Q (c : Config) : Nat := c.N / 4

end Sys2Proof
end

