-- ==== Sys2Proof/Syntax.lean ====
section
/-! DEFINITION. The syntax of the model: the registers of the host window, the 18 port events (one constructor per row of
spec/opcode_table.json) and the lines of the assembler of spec/30_encoding.md R83 and R84. -/

namespace Sys2Proof

/-- The eight host-visible registers, in the order of their word index REG (spec/10_state.md R41). -/
inductive RegName where
  | freq | period | phase | sample | retargets | config | fmin | fmax
  deriving DecidableEq, Repr

/-- The access codes of spec/10_state.md section 3: read and write, or read-only with writes ignored. -/
inductive Access where
  | RW | RO
  deriving DecidableEq, Repr

/-- The events that reach the block's ports (R3, R82). The operand of a write is the whole DATA field (R79), so every
term is well formed: nothing is left for a check on an event to refuse. -/
inductive Instr where
  | rdFreq
  | rdPeriod
  | rdPhase
  | rdSample
  | rdRetargets
  | rdConfig
  | rdFmin
  | rdFmax
  | wrFreq (d : Word)
  | wrPeriod (d : Word)
  | wrPhase (d : Word)
  | wrSample (d : Word)
  | wrRetargets (d : Word)
  | wrConfig (d : Word)
  | wrFmin (d : Word)
  | wrFmax (d : Word)
  | strobe
  | reset
  deriving DecidableEq, Repr

namespace Asm

/-- An immediate of the assembler, in one of the three spellings of R83. -/
inductive Imm where
  /-- `0x...`, of the value given. -/
  | hex (v : Nat)
  /-- An unsigned decimal. -/
  | dec (v : Nat)
  /-- A negative decimal, `-v`. -/
  | neg (v : Nat)
  deriving DecidableEq, Repr

/-- The items of R83. -/
inductive Item where
  | reset
  | strobe
  | rd (r : RegName)
  | wr (r : RegName) (imm : Imm)
  deriving DecidableEq, Repr

/-- A decimal number of hertz (R84): `± digits / 10^scale`. -/
structure Decimal where
  negative : Bool
  digits : Nat
  scale : Nat
  deriving DecidableEq, Repr

/-- The two readings of R83's groups, which the spec does not decide between (assumption log, entry 11). -/
inductive GroupReading where
  /-- The text of R83 and R235: at most one `rd` or `wr` in a group. -/
  | oneAccess
  /-- The vectors of spec/95_test_vectors.md 2.6 and its program P4: an `rd` and a `wr` may share a group. -/
  | readAndWrite
  deriving DecidableEq, Repr

/-- A line of an event program (R83, R84). A group holds items only: no `setf`, `nop` or `strobe * n` (assumption log,
entry 22). -/
inductive Line where
  /-- A line with nothing on it but space and a comment. -/
  | blank
  /-- One item: a cycle with one event. -/
  | item (i : Item)
  /-- `e1 | e2 | e3` in braces: one cycle with several events. -/
  | group (is : List Item)
  /-- `strobe * n`. -/
  | strobes (n : Nat)
  /-- `setf X`. -/
  | setf (x : Decimal)
  /-- `nop`: a cycle with no event. -/
  | nop
  deriving DecidableEq, Repr

end Asm

end Sys2Proof
end

