-- ==== Sys2Proof/WellFormed.lean ====
section
/-! DEFINITION. The checks on what is written down before the block runs: a configuration (spec/00_scope.md R8), an event
word (spec/30_encoding.md R80, R82) and a line of an event program (R83, R84). -/

namespace Sys2Proof

/-- Every constraint of R6 and R8 on the five parameters. -/
def Config.paramsOk (c : Config) : Bool :=
  c.N % 4 == 0 && decide (4 ≤ c.N) && decide (c.N ≤ 65532) &&
  decide (1 ≤ c.R) && decide (c.R ≤ 16) &&
  decide (1 ≤ c.freqMin) && decide (16 ≤ c.freqMin * c.N) &&
  decide (c.freqMin ≤ c.freqMax) && decide (c.freqMax ≤ 2147483647) && decide (c.freqMax * c.N ≤ K) &&
  decide (c.freqMin ≤ c.freqReset) && decide (c.freqReset ≤ c.freqMax)

/-- The ROM is a function from `[0, N)` to R-bit codes (R100, R111). -/
def Config.tableOk (c : Config) : Bool :=
  c.table.length == c.N && c.table.all (fun x => decide (x < 2 ^ c.R))

/-- A configuration the block is built for: anything else is `BadConfig` (R8, R212). -/
def Config.valid (c : Config) : Bool := c.paramsOk && c.tableOk

/-- The constraint on the platform's clock (R243). No rule of the event model reads it, and it is no part of R8. -/
def Config.clockOk (c : Config) : Bool := decide (1000000 ≤ c.clkHz)

/-- A row of the opcode map of R82. -/
structure OpcodeRow where
  mnemonic : String
  matchBits : EventWord
  mask : EventWord
  deriving DecidableEq, Repr

/-- A word selects a row when `w AND mask = match` (R82). -/
def OpcodeRow.selects (r : OpcodeRow) (w : EventWord) : Bool := w &&& r.mask == r.matchBits

/-- The opcode map of R82, row by row. -/
def opcodeMap : List OpcodeRow :=
  [⟨"RD_FREQ", 0x1000000000#40, 0xFFFFFFFFFF#40⟩,
   ⟨"RD_PERIOD", 0x1100000000#40, 0xFFFFFFFFFF#40⟩,
   ⟨"RD_PHASE", 0x1200000000#40, 0xFFFFFFFFFF#40⟩,
   ⟨"RD_SAMPLE", 0x1300000000#40, 0xFFFFFFFFFF#40⟩,
   ⟨"RD_RETARGETS", 0x1400000000#40, 0xFFFFFFFFFF#40⟩,
   ⟨"RD_CONFIG", 0x1500000000#40, 0xFFFFFFFFFF#40⟩,
   ⟨"RD_FMIN", 0x1600000000#40, 0xFFFFFFFFFF#40⟩,
   ⟨"RD_FMAX", 0x1700000000#40, 0xFFFFFFFFFF#40⟩,
   ⟨"WR_FREQ", 0x2000000000#40, 0xFF00000000#40⟩,
   ⟨"WR_PERIOD", 0x2100000000#40, 0xFF00000000#40⟩,
   ⟨"WR_PHASE", 0x2200000000#40, 0xFF00000000#40⟩,
   ⟨"WR_SAMPLE", 0x2300000000#40, 0xFF00000000#40⟩,
   ⟨"WR_RETARGETS", 0x2400000000#40, 0xFF00000000#40⟩,
   ⟨"WR_CONFIG", 0x2500000000#40, 0xFF00000000#40⟩,
   ⟨"WR_FMIN", 0x2600000000#40, 0xFF00000000#40⟩,
   ⟨"WR_FMAX", 0x2700000000#40, 0xFF00000000#40⟩,
   ⟨"STROBE", 0x4000000000#40, 0xFFFFFFFFFF#40⟩,
   ⟨"RESET", 0x8000000000#40, 0xFFFFFFFFFF#40⟩]

/-- An event word is well formed exactly when it matches one row of the opcode map (R80). -/
def wordWellFormed (w : EventWord) : Bool := opcodeMap.any (fun r => r.selects w)

namespace Asm

/-- The ranges of the three spellings of an immediate (R83). -/
def Imm.ok : Imm → Bool
  | .hex v => decide (v ≤ 4294967295)
  | .dec v => decide (v ≤ 4294967295)
  | .neg v => decide (1 ≤ v) && decide (v ≤ 2147483648)

def Item.ok : Item → Bool
  | .wr _ imm => imm.ok
  | .reset => true
  | .strobe => true
  | .rd _ => true

/-- The items of a group follow the order of R72: an optional read, an optional strobe, an optional write; a reset
stands alone (R83). DESIGN CHOICE: a group may hold a single item, `reset` included, though R83 writes braces for a cycle
with more than one event (assumption log, entry 21). -/
def groupOrderOk : List Item → Bool
  | [] => false
  | [_] => true
  | [.rd _, .strobe] => true
  | [.rd _, .wr _ _] => true
  | [.strobe, .wr _ _] => true
  | [.rd _, .strobe, .wr _ _] => true
  | _ => false

/-- At most one `rd` or `wr` in a group (R83, R235), which is what the ports can give in a cycle. -/
def groupOneAccess (is : List Item) : Bool :=
  decide ((is.filter (fun i => match i with
    | .rd _ => true
    | .wr _ _ => true
    | .reset => false
    | .strobe => false)).length ≤ 1)

/-- The groups the assembler admits, under each reading of R83 (assumption log, entry 11). -/
def groupOk (g : GroupReading) (is : List Item) : Bool :=
  groupOrderOk is &&
  match g with
  | .oneAccess => groupOneAccess is
  | .readAndWrite => true

end Asm

end Sys2Proof
end

