-- ==== Sys2Proof/Decode.lean ====
section
/-! DEFINITION. The decoder of event words, total on every 40-bit word and rejecting by name, and the encoder
(spec/30_encoding.md R76 to R82). Both are written from the field layout of R76 and the KIND codes of R77, so that the
opcode map of R82 (`opcodeMap`) is an independent description to hold them against. -/

namespace Sys2Proof

/-- Why a word has no event: it is reserved (R80); the name is the one of spec/60_exceptions.md R212. -/
inductive DecodeError where
  | reservedEvent (w : EventWord)
  deriving DecidableEq, Repr

/-- KIND, bits 39:36 (R76). -/
def eventKind (w : EventWord) : BitVec 4 := w.extractLsb' 36 4

/-- Bit 35, reserved, must be 0 (R76). -/
def eventReserved (w : EventWord) : Bool := w.getLsbD 35

/-- REG, bits 34:32 (R76). -/
def eventReg (w : EventWord) : BitVec 3 := w.extractLsb' 32 3

/-- DATA, bits 31:0 (R76). -/
def eventData (w : EventWord) : Word := w.extractLsb' 0 32

/-- The register at a word index (spec/10_state.md R41). -/
def regOfIndex (r : BitVec 3) : RegName :=
  match r with
  | 0#3 => .freq
  | 1#3 => .period
  | 2#3 => .phase
  | 3#3 => .sample
  | 4#3 => .retargets
  | 5#3 => .config
  | 6#3 => .fmin
  | 7#3 => .fmax

/-- The word index of a register (spec/10_state.md R41). -/
def indexOfReg (r : RegName) : BitVec 3 :=
  match r with
  | .freq => 0#3
  | .period => 1#3
  | .phase => 2#3
  | .sample => 3#3
  | .retargets => 4#3
  | .config => 5#3
  | .fmin => 6#3
  | .fmax => 7#3

/-- The access code of a register (spec/10_state.md R41). -/
def accessOfReg (r : RegName) : Access :=
  match r with
  | .freq => .RW
  | .period => .RO
  | .phase => .RO
  | .sample => .RO
  | .retargets => .RO
  | .config => .RO
  | .fmin => .RO
  | .fmax => .RO

/-- The event `RD_<reg>` (R3, R82). -/
def readEvent (r : RegName) : Instr :=
  match r with
  | .freq => .rdFreq
  | .period => .rdPeriod
  | .phase => .rdPhase
  | .sample => .rdSample
  | .retargets => .rdRetargets
  | .config => .rdConfig
  | .fmin => .rdFmin
  | .fmax => .rdFmax

/-- The event `WR_<reg>(d)` (R3, R82). -/
def writeEvent (r : RegName) (d : Word) : Instr :=
  match r with
  | .freq => .wrFreq d
  | .period => .wrPeriod d
  | .phase => .wrPhase d
  | .sample => .wrSample d
  | .retargets => .wrRetargets d
  | .config => .wrConfig d
  | .fmin => .wrFmin d
  | .fmax => .wrFmax d

/-- The event a word encodes, or its rejection by name (R76 to R80). -/
def decode (w : EventWord) : Except DecodeError Instr :=
  if eventReserved w then .error (.reservedEvent w)
  else if eventKind w = 0x1#4 then
    if eventData w = 0#32 then .ok (readEvent (regOfIndex (eventReg w))) else .error (.reservedEvent w)
  else if eventKind w = 0x2#4 then
    .ok (writeEvent (regOfIndex (eventReg w)) (eventData w))
  else if eventKind w = 0x4#4 then
    if eventReg w = 0#3 ∧ eventData w = 0#32 then .ok .strobe else .error (.reservedEvent w)
  else if eventKind w = 0x8#4 then
    if eventReg w = 0#3 ∧ eventData w = 0#32 then .ok .reset else .error (.reservedEvent w)
  else .error (.reservedEvent w)

/-- A word from its fields, in the order of R76: KIND, the reserved bit 0, REG, DATA. -/
def eventWord (kind : BitVec 4) (reg : BitVec 3) (data : Word) : EventWord :=
  kind ++ 0#1 ++ reg ++ data

/-- The word of a read of a register (R77, R78, R79). -/
def encodeRead (r : RegName) : EventWord := eventWord 0x1#4 (indexOfReg r) 0#32

/-- The word of a write to a register (R77, R78, R79). -/
def encodeWrite (r : RegName) (d : Word) : EventWord := eventWord 0x2#4 (indexOfReg r) d

/-- The word of an event (R76 to R82). -/
def encode (i : Instr) : EventWord :=
  match i with
  | .rdFreq => encodeRead .freq
  | .rdPeriod => encodeRead .period
  | .rdPhase => encodeRead .phase
  | .rdSample => encodeRead .sample
  | .rdRetargets => encodeRead .retargets
  | .rdConfig => encodeRead .config
  | .rdFmin => encodeRead .fmin
  | .rdFmax => encodeRead .fmax
  | .wrFreq d => encodeWrite .freq d
  | .wrPeriod d => encodeWrite .period d
  | .wrPhase d => encodeWrite .phase d
  | .wrSample d => encodeWrite .sample d
  | .wrRetargets d => encodeWrite .retargets d
  | .wrConfig d => encodeWrite .config d
  | .wrFmin d => encodeWrite .fmin d
  | .wrFmax d => encodeWrite .fmax d
  | .strobe => eventWord 0x4#4 0#3 0#32
  | .reset => eventWord 0x8#4 0#3 0#32

/-- The mnemonic of an event's row in the opcode map (R82). -/
def mnemonicOf (i : Instr) : String :=
  match i with
  | .rdFreq => "RD_FREQ"
  | .rdPeriod => "RD_PERIOD"
  | .rdPhase => "RD_PHASE"
  | .rdSample => "RD_SAMPLE"
  | .rdRetargets => "RD_RETARGETS"
  | .rdConfig => "RD_CONFIG"
  | .rdFmin => "RD_FMIN"
  | .rdFmax => "RD_FMAX"
  | .wrFreq _ => "WR_FREQ"
  | .wrPeriod _ => "WR_PERIOD"
  | .wrPhase _ => "WR_PHASE"
  | .wrSample _ => "WR_SAMPLE"
  | .wrRetargets _ => "WR_RETARGETS"
  | .wrConfig _ => "WR_CONFIG"
  | .wrFmin _ => "WR_FMIN"
  | .wrFmax _ => "WR_FMAX"
  | .strobe => "STROBE"
  | .reset => "RESET"

/-- The event word whose low `nbits` bits are those of `w` and whose other bits are 0. An event word has 40 bits and no
byte order (R52, R81). -/
def tableWord (nbits w : Nat) : EventWord := BitVec.ofNat 40 (w % 2 ^ nbits)

/-- What the decoder reads from a row of spec/opcode_table.json. -/
def decodeTableWord (nbits w : Nat) : Option Instr :=
  match decode (tableWord nbits w) with
  | .ok i => some i
  | .error _ => none

end Sys2Proof
end

