-- ==== Sys2Proof/Machine/Operands.lean ====
section
/-! DEFINITION. The operand forms of the events and the pure functions of the converter: the signed reading of a data word
(spec/00_scope.md R11, R12), the clamp `C` and the period function `P` (spec/42_frequency.md R150, R152). -/

namespace Sys2Proof.Machine

/-- `sint32(d)`: the two's-complement value of a 32-bit word (R11). -/
def sint32 (d : Word) : Int :=
  if d.toNat < 2147483648 then (d.toNat : Int) else (d.toNat : Int) - 4294967296

/-- `uint32(v)`: the 32-bit word whose unsigned value is `v mod 2^32` (R11). -/
def uint32 (v : Int) : Word := BitVec.ofInt 32 v

/-- `zext_16(v)` of an R-bit code, `R ≤ 16` (R11). -/
def zext16 (v : Nat) : Half := BitVec.ofNat 16 v

/-- The frequency in hertz a word denotes (R12). -/
def hertz (d : Word) : Rat := (sint32 d : Rat) / 65536

/-- `C(d)`: the clamp of a written word to `[FREQ_MIN, FREQ_MAX]`, read as signed (R152). -/
def clampFreq (c : Config) (d : Word) : Int := min (max (sint32 d) c.freqMin) c.freqMax

/-- `P(f) = floor(K / (f · N))`, the tick interval in strobes (R150). -/
def periodOf (c : Config) (f : Int) : Int := K / (f * c.N)

/-- The frequency of each output sine when the time base gives one strobe per microsecond,
`10^6 / (N · period)` hertz (spec/41_sampler.md R129). -/
def outputHz (c : Config) (period : Int) : Rat := 1000000 / ((c.N : Rat) * period)

end Sys2Proof.Machine
end

