-- ==== Sys2Proof/Machine/Regs.lean ====
section
/-! DEFINITION. The block's whole mutable state, the tuple S of spec/10_state.md R20, its reset value (R230, R231), and
the observation events of spec/00_scope.md R16. -/

namespace Sys2Proof.Machine

/-- `S = (idxA, idxB, freq, period, tcnt, retargets)` (R20). -/
structure Regs where
  /-- Phase index of channel A (R23). -/
  idxA : Half
  /-- Phase index of channel B (R24). -/
  idxB : Half
  /-- Current frequency, an SQ15.16 word (R26). -/
  freq : Word
  /-- Tick interval in strobes (R27). -/
  period : Word
  /-- Strobes since the last tick, retarget or reset; the host cannot read it (R28, R43). -/
  tcnt : Word
  /-- Count of retargets modulo 2^32 (R29). -/
  retargets : Word
  deriving DecidableEq, Repr

/-- Every field at its reset value (R230). -/
def resetRegs (c : Config) : Regs :=
  { idxA := BitVec.ofNat 16 c.Q
    idxB := 0#16
    freq := uint32 c.freqReset
    period := uint32 (periodOf c c.freqReset)
    tcnt := 0#32
    retargets := 0#32 }

/-- An observation event (R16). -/
inductive Obs where
  /-- `Sample(a, b)`: the new codes of channels A and B. -/
  | sample (a b : Nat)
  /-- `Retarget(f, p)`: the new frequency word and the new period. -/
  | retarget (f p : Word)
  /-- The value returned by a read of a register. -/
  | read (r : RegName) (v : Word)
  deriving DecidableEq, Repr

end Sys2Proof.Machine
end

