-- ==== Sys2Proof/Machine/Rom.lean ====
section
/-! DEFINITION. The sine ROM (spec/40_sine_table.md): its one read, the formula each entry meets, and the two example
builds of spec/00_scope.md R9 with their tables as spec/95_test_vectors.md section 2.1 lists them. -/

namespace Sys2Proof.Machine

/-- `table[i]`: the code at an entry. The index is taken modulo N, so no read is ever outside `[0, N)`
(R109, R130); every index the block reads with is below N already. -/
def code (c : Config) (i : Nat) : Nat := c.table.getD (i % c.N) 0

/-- `v_i = (1 + sin(2·π·i / N)) · M / 2`, the exact real value of R101. -/
noncomputable def exactValue (c : Config) (i : Nat) : ℝ :=
  (1 + Real.sin (2 * Real.pi * i / c.N)) * c.M / 2

/-- The named property of R111: every entry meets R101, `table[i] = floor(v_i + 1/2)`. The step never computes a sine;
statements about the table's values take this as a hypothesis on the configuration. -/
def TableFormula (c : Config) : Prop :=
  ∀ i, i < c.N → ((code c i : Nat) : Int) = ⌊exactValue c i + 1 / 2⌋

/-- `j = (N - i) mod N`, the index opposite `i` about 0 and π (R105). -/
def oppositeIndex (c : Config) (i : Nat) : Nat := (c.N - i) % c.N

/-- `(N/2 - i) mod N`, the index reflected about π/2 (R106); the difference is an integer and may be negative. -/
def reflectedIndex (c : Config) (i : Nat) : Nat := ((((c.N / 2 : Nat) : Int) - (i : Int)) % (c.N : Int)).toNat

/-- R105: the table is odd about 0 and π. An entry and its opposite add up to `M`, but for the two ties, where both are
`2^(R-1)` and the sum is `M + 1`. The source's even version is corrected by spec/90_conflicts.md C1 and not asserted. -/
abbrev OddSymmetry (c : Config) : Prop :=
  ∀ i, i < c.N →
    if i = 0 ∨ i = c.N / 2 then
      code c i = 2 ^ (c.R - 1) ∧ code c (oppositeIndex c i) = 2 ^ (c.R - 1) ∧
      code c i + code c (oppositeIndex c i) = c.M + 1
    else code c i + code c (oppositeIndex c i) = c.M

/-- R106: the table is even about π/2. -/
abbrev EvenSymmetry (c : Config) : Prop := ∀ i, i < c.N → code c i = code c (reflectedIndex c i)

/-- The table for `N = 600`, `R = 12` (spec/95_test_vectors.md 2.1), twenty entries a line. -/
def ex1Table : List Nat :=
  [2048, 2069, 2090, 2112, 2133, 2155, 2176, 2197, 2219, 2240, 2262, 2283, 2304, 2325, 2347, 2368, 2389, 2410, 2431, 2452] ++
  [2473, 2494, 2515, 2536, 2557, 2577, 2598, 2619, 2639, 2660, 2680, 2701, 2721, 2741, 2761, 2781, 2801, 2821, 2841, 2861] ++
  [2880, 2900, 2919, 2939, 2958, 2977, 2996, 3015, 3034, 3053, 3071, 3090, 3108, 3126, 3145, 3163, 3181, 3198, 3216, 3234] ++
  [3251, 3268, 3285, 3302, 3319, 3336, 3353, 3369, 3385, 3402, 3418, 3433, 3449, 3465, 3480, 3495, 3510, 3525, 3540, 3555] ++
  [3569, 3583, 3597, 3611, 3625, 3639, 3652, 3665, 3678, 3691, 3704, 3716, 3729, 3741, 3753, 3765, 3776, 3788, 3799, 3810] ++
  [3821, 3831, 3842, 3852, 3862, 3872, 3881, 3891, 3900, 3909, 3918, 3927, 3935, 3943, 3951, 3959, 3967, 3974, 3981, 3988] ++
  [3995, 4001, 4008, 4014, 4020, 4025, 4031, 4036, 4041, 4046, 4050, 4055, 4059, 4063, 4066, 4070, 4073, 4076, 4079, 4081] ++
  [4084, 4086, 4088, 4090, 4091, 4092, 4093, 4094, 4095, 4095, 4095, 4095, 4095, 4094, 4093, 4092, 4091, 4090, 4088, 4086] ++
  [4084, 4081, 4079, 4076, 4073, 4070, 4066, 4063, 4059, 4055, 4050, 4046, 4041, 4036, 4031, 4025, 4020, 4014, 4008, 4001] ++
  [3995, 3988, 3981, 3974, 3967, 3959, 3951, 3943, 3935, 3927, 3918, 3909, 3900, 3891, 3881, 3872, 3862, 3852, 3842, 3831] ++
  [3821, 3810, 3799, 3788, 3776, 3765, 3753, 3741, 3729, 3716, 3704, 3691, 3678, 3665, 3652, 3639, 3625, 3611, 3597, 3583] ++
  [3569, 3555, 3540, 3525, 3510, 3495, 3480, 3465, 3449, 3433, 3418, 3402, 3385, 3369, 3353, 3336, 3319, 3302, 3285, 3268] ++
  [3251, 3234, 3216, 3198, 3181, 3163, 3145, 3126, 3108, 3090, 3071, 3053, 3034, 3015, 2996, 2977, 2958, 2939, 2919, 2900] ++
  [2880, 2861, 2841, 2821, 2801, 2781, 2761, 2741, 2721, 2701, 2680, 2660, 2639, 2619, 2598, 2577, 2557, 2536, 2515, 2494] ++
  [2473, 2452, 2431, 2410, 2389, 2368, 2347, 2325, 2304, 2283, 2262, 2240, 2219, 2197, 2176, 2155, 2133, 2112, 2090, 2069] ++
  [2048, 2026, 2005, 1983, 1962, 1940, 1919, 1898, 1876, 1855, 1833, 1812, 1791, 1770, 1748, 1727, 1706, 1685, 1664, 1643] ++
  [1622, 1601, 1580, 1559, 1538, 1518, 1497, 1476, 1456, 1435, 1415, 1394, 1374, 1354, 1334, 1314, 1294, 1274, 1254, 1234] ++
  [1215, 1195, 1176, 1156, 1137, 1118, 1099, 1080, 1061, 1042, 1024, 1005, 987, 969, 950, 932, 914, 897, 879, 861] ++
  [844, 827, 810, 793, 776, 759, 742, 726, 710, 693, 677, 662, 646, 630, 615, 600, 585, 570, 555, 540] ++
  [526, 512, 498, 484, 470, 456, 443, 430, 417, 404, 391, 379, 366, 354, 342, 330, 319, 307, 296, 285] ++
  [274, 264, 253, 243, 233, 223, 214, 204, 195, 186, 177, 168, 160, 152, 144, 136, 128, 121, 114, 107] ++
  [100, 94, 87, 81, 75, 70, 64, 59, 54, 49, 45, 40, 36, 32, 29, 25, 22, 19, 16, 14] ++
  [11, 9, 7, 5, 4, 3, 2, 1, 0, 0, 0, 0, 0, 1, 2, 3, 4, 5, 7, 9] ++
  [11, 14, 16, 19, 22, 25, 29, 32, 36, 40, 45, 49, 54, 59, 64, 70, 75, 81, 87, 94] ++
  [100, 107, 114, 121, 128, 136, 144, 152, 160, 168, 177, 186, 195, 204, 214, 223, 233, 243, 253, 264] ++
  [274, 285, 296, 307, 319, 330, 342, 354, 366, 379, 391, 404, 417, 430, 443, 456, 470, 484, 498, 512] ++
  [526, 540, 555, 570, 585, 600, 615, 630, 646, 662, 677, 693, 710, 726, 742, 759, 776, 793, 810, 827] ++
  [844, 861, 879, 897, 914, 932, 950, 969, 987, 1005, 1024, 1042, 1061, 1080, 1099, 1118, 1137, 1156, 1176, 1195] ++
  [1215, 1234, 1254, 1274, 1294, 1314, 1334, 1354, 1374, 1394, 1415, 1435, 1456, 1476, 1497, 1518, 1538, 1559, 1580, 1601] ++
  [1622, 1643, 1664, 1685, 1706, 1727, 1748, 1770, 1791, 1812, 1833, 1855, 1876, 1898, 1919, 1940, 1962, 1983, 2005, 2026]

/-- The example build EX1 of R9. -/
def EX1 : Config :=
  { N := 600, R := 12, freqMin := 0x00010000, freqMax := 0x00C80000, freqReset := 0x00010000
    table := ex1Table, clkHz := 1000000, zellaBase := 0 }

/-- The example build EX2 of R9. -/
def EX2 : Config :=
  { N := 8, R := 4, freqMin := 0x00010000, freqMax := 0x7A120000, freqReset := 0x00010000
    table := [8, 13, 15, 13, 8, 2, 0, 2], clkHz := 1000000, zellaBase := 0 }

/-- The build that `State.reset` is a state of (assumption log, entry 2). -/
def buildConfig : Config := EX2

end Sys2Proof.Machine
end

