-- ==== Sys2Proof/Machine/State.lean ====
section
/-! DEFINITION. The machine's state as plain data, the reasons a step stops, and the state right after reset. -/

namespace Sys2Proof.Machine

/-- The state of a run: the build, the block's tuple S, and what the model keeps beside it. -/
structure State where
  /-- The build's parameters and ROM: constants, written by no event (R20, R110). -/
  cfg : Config
  /-- A RESET has happened since power-up (R42). -/
  afterReset : Bool
  /-- The block's mutable state S (R20). -/
  regs : Regs
  /-- The event words still to be taken, next one first (R76, R245). -/
  inputs : List EventWord
  /-- The observation so far, oldest first (R16). -/
  trace : List Obs
  deriving DecidableEq, Repr

/-- The block has no fault: no event can fail, and no item of the spec is treated as a fault
(spec/60_exceptions.md R210; spec/93_implementation_defined.md part 1). So this type has no constructor. -/
inductive Fault where
  deriving DecidableEq, Repr

/-- The inputs the model gives no meaning to (spec/60_exceptions.md R212). None is a hardware behaviour, and each is
safe: it can only make a claim about a run unprovable. -/
inductive Refusal where
  /-- An event that has no meaning yet; raised by a refused arm of exec alone (none is left). Safe. -/
  | notModelled (mnemonic : String)
  /-- `ReservedEvent(w)`: a word that matches no row of the opcode map; raised by `takeWord`. Safe. -/
  | reservedEvent (w : EventWord)
  /-- `BeforeReset`: an event before the first RESET; raised by `takeEvent`. Safe. -/
  | beforeReset
  /-- `BadConfig`: a configuration that breaks R8; raised by `takeEvent`, `takeWord` and `takeNothing`. Safe. -/
  | badConfig
  deriving DecidableEq, Repr

/-- The state of a build right after a RESET: S at its reset values (R230, R231), nothing pending, nothing observed. -/
def State.ofBuild (c : Config) : State :=
  { cfg := c, afterReset := true, regs := resetRegs c, inputs := [], trace := [] }

/-- The state of a build at power-up: S holds any values at all (R42), so they are an argument. -/
def State.powerUp (c : Config) (junk : Regs) : State :=
  { cfg := c, afterReset := false, regs := junk, inputs := [], trace := [] }

/-- The machine right after reset (R231), of the build `buildConfig`. -/
def State.reset : State := State.ofBuild buildConfig

end Sys2Proof.Machine
end

