-- ==== Sys2Proof/Machine/Flags.lean ====
section
/-! DEFINITION. The block has no status flags (spec/10_state.md R44). What stands here are the two conditions its events
test, and the queries on the observation that its status pulses and counts are made of. -/

namespace Sys2Proof.Machine

/-- The strobe completes a period: `tcnt + 1 = period`, the sum taken on integers (spec/41_sampler.md R120). -/
def completesPeriod (r : Regs) : Bool := r.tcnt.toNat + 1 == r.period.toNat

/-- The write changes the frequency: the clamped word differs from the current one, exactly and with no tolerance
(spec/42_frequency.md R153, R156). -/
def changesFreq (c : Config) (d : Word) (r : Regs) : Bool := uint32 (clampFreq c d) != r.freq

/-- The samples of an observation, in order (R16). -/
def samplesOf (t : List Obs) : List (Nat × Nat) :=
  t.filterMap (fun o => match o with
    | .sample a b => some (a, b)
    | .retarget _ _ => none
    | .read _ _ => none)

/-- The retargets of an observation, in order (R16). -/
def retargetsOf (t : List Obs) : List (Word × Word) :=
  t.filterMap (fun o => match o with
    | .sample _ _ => none
    | .retarget f p => some (f, p)
    | .read _ _ => none)

/-- The read values of an observation, in order (R16). -/
def readsOf (t : List Obs) : List (RegName × Word) :=
  t.filterMap (fun o => match o with
    | .sample _ _ => none
    | .retarget _ _ => none
    | .read r v => some (r, v))

end Sys2Proof.Machine
end

