-- ==== Sys2Proof/Machine/Ops.lean ====
section
/-! DEFINITION. The shared operations over the state that the meanings of the events are made of. The block takes no
exception and returns from none (spec/60_exceptions.md R210, R215), so there is no such operation. -/

namespace Sys2Proof.Machine

/-- `emit E`: append an observation event to the trace (R13, R16). -/
def emit (o : Obs) (s : State) : State := { s with trace := s.trace ++ [o] }

/-- `outA = table[S.idxA]`, the code on `dac_a` (spec/10_state.md R30). -/
def outA (s : State) : Nat := code s.cfg s.regs.idxA.toNat

/-- `outB = table[S.idxB]`, the code on `dac_b` (R30). -/
def outB (s : State) : Nat := code s.cfg s.regs.idxB.toNat

/-- PHASE: `{idxA, idxB}` (R35). -/
def phaseWord (r : Regs) : Word := r.idxA ++ r.idxB

/-- SAMPLE: `{zext_16(table[idxA]), zext_16(table[idxB])}` (R36). -/
def sampleWord (s : State) : Word := zext16 (outA s) ++ zext16 (outB s)

/-- CONFIG: `{0[10:0], R[4:0], N[15:0]}` (R38). -/
def configWord (c : Config) : Word := 0#11 ++ BitVec.ofNat 5 c.R ++ BitVec.ofNat 16 c.N

/-- `reg(NAME)`: the 32-bit value a read of a register returns (R13, R33 to R40). -/
def regValue (r : RegName) (s : State) : Word :=
  match r with
  | .freq => s.regs.freq
  | .period => s.regs.period
  | .phase => phaseWord s.regs
  | .sample => sampleWord s
  | .retargets => s.regs.retargets
  | .config => configWord s.cfg
  | .fmin => uint32 s.cfg.freqMin
  | .fmax => uint32 s.cfg.freqMax

/-- `rdata <- reg(NAME)`: a read returns the value and changes no field of S (spec/20_memory.md R55). -/
def readReg (r : RegName) (s : State) : State := emit (.read r (regValue r s)) s

/-- A write to a read-only register is accepted and ignored: no field of S changes and nothing is emitted
(spec/43_register_access.md section 2). -/
def ignoreWrite (_r : RegName) (_d : Word) (s : State) : State := s

/-- One index step, `(i + 1) mod N`, never a "greater than N" test (spec/41_sampler.md R121, R130). -/
def nextIndex (c : Config) (i : Half) : Half := BitVec.ofNat 16 ((i.toNat + 1) % c.N)

/-- The two index writes of TICK (R121). -/
def advance (c : Config) (r : Regs) : Regs :=
  { r with idxA := nextIndex c r.idxA, idxB := nextIndex c r.idxB }

/-- TICK: both indices advance, then the codes at the new indices are emitted (R121, R131). -/
def tick (s : State) : State :=
  let s' := { s with regs := advance s.cfg s.regs }
  emit (.sample (outA s') (outB s')) s'

/-- The strobe counter cleared (R120, R153). -/
def clearCount (s : State) : State := { s with regs := { s.regs with tcnt := 0#32 } }

/-- The strobe counter raised by one (R120). -/
def countStrobe (s : State) : State :=
  { s with regs := { s.regs with tcnt := BitVec.ofNat 32 (s.regs.tcnt.toNat + 1) } }

/-- A retarget to the frequency `f`: frequency and period installed, the count restarted, the retarget counted and
emitted, all in one event (spec/42_frequency.md R153). -/
def retarget (f : Int) (s : State) : State :=
  let p := uint32 (periodOf s.cfg f)
  emit (.retarget (uint32 f) p)
    { s with regs :=
      { s.regs with
        freq := uint32 f
        period := p
        tcnt := 0#32
        retargets := BitVec.ofNat 32 (s.regs.retargets.toNat + 1) } }

/-- Every field of S at its reset value; the constants and the observation are left alone (R230). -/
def applyReset (s : State) : State := { s with regs := resetRegs s.cfg, afterReset := true }

end Sys2Proof.Machine
end

