-- ==== Sys2Proof/Machine/Frequency.lean ====
section
/-! DEFINITION. The events of the FREQ register (spec/42_frequency.md). -/

namespace Sys2Proof.Machine

/-- RD_FREQ: the current, clamped frequency (R154). -/
def execRdFreq (s : State) : Host.Outcome State Fault Refusal := .next (readReg .freq s)

/-- WR_FREQ(d): clamp, exact change test, and on a change the retarget; otherwise nothing at all (R153). -/
def execWrFreq (d : Word) (s : State) : Host.Outcome State Fault Refusal :=
  if changesFreq s.cfg d s.regs then .next (retarget (clampFreq s.cfg d) s) else .next s

end Sys2Proof.Machine
end

