-- ==== Sys2Proof/Machine/Registers.lean ====
section
/-! DEFINITION. The register reads and the writes to read-only registers (spec/43_register_access.md). -/

namespace Sys2Proof.Machine

/-- RD_PERIOD (R180). -/
def execRdPeriod (s : State) : Host.Outcome State Fault Refusal := .next (readReg .period s)

/-- RD_PHASE (R181). -/
def execRdPhase (s : State) : Host.Outcome State Fault Refusal := .next (readReg .phase s)

/-- RD_SAMPLE (R182). -/
def execRdSample (s : State) : Host.Outcome State Fault Refusal := .next (readReg .sample s)

/-- RD_RETARGETS (R183). -/
def execRdRetargets (s : State) : Host.Outcome State Fault Refusal := .next (readReg .retargets s)

/-- RD_CONFIG (R184). -/
def execRdConfig (s : State) : Host.Outcome State Fault Refusal := .next (readReg .config s)

/-- RD_FMIN (R185). -/
def execRdFmin (s : State) : Host.Outcome State Fault Refusal := .next (readReg .fmin s)

/-- RD_FMAX (R186). -/
def execRdFmax (s : State) : Host.Outcome State Fault Refusal := .next (readReg .fmax s)

/-- WR_PERIOD(d): ignored (R187). -/
def execWrPeriod (d : Word) (s : State) : Host.Outcome State Fault Refusal := .next (ignoreWrite .period d s)

/-- WR_PHASE(d): ignored (R188). -/
def execWrPhase (d : Word) (s : State) : Host.Outcome State Fault Refusal := .next (ignoreWrite .phase d s)

/-- WR_SAMPLE(d): ignored (R189). -/
def execWrSample (d : Word) (s : State) : Host.Outcome State Fault Refusal := .next (ignoreWrite .sample d s)

/-- WR_RETARGETS(d): ignored (R190). -/
def execWrRetargets (d : Word) (s : State) : Host.Outcome State Fault Refusal := .next (ignoreWrite .retargets d s)

/-- WR_CONFIG(d): ignored (R191). -/
def execWrConfig (d : Word) (s : State) : Host.Outcome State Fault Refusal := .next (ignoreWrite .config d s)

/-- WR_FMIN(d): ignored (R192). -/
def execWrFmin (d : Word) (s : State) : Host.Outcome State Fault Refusal := .next (ignoreWrite .fmin d s)

/-- WR_FMAX(d): ignored (R193). -/
def execWrFmax (d : Word) (s : State) : Host.Outcome State Fault Refusal := .next (ignoreWrite .fmax d s)

end Sys2Proof.Machine
end

