-- ==== Sys2Proof/Machine/Reset.lean ====
section
/-! DEFINITION. The RESET event (spec/70_reset_and_hazards.md R230). -/

namespace Sys2Proof.Machine

/-- RESET: every state field at its reset value; emits no Sample and no Retarget (R230). -/
def execReset (s : State) : Host.Outcome State Fault Refusal := .next (applyReset s)

end Sys2Proof.Machine
end

