-- ==== Sys2Proof/Machine/Sampler.lean ====
section
/-! DEFINITION. The time-base event STROBE and the TICK it starts (spec/41_sampler.md). -/

namespace Sys2Proof.Machine

/-- STROBE: the strobe that completes a period clears the count and ticks; any other is counted (R120). -/
def execStrobe (s : State) : Host.Outcome State Fault Refusal :=
  if completesPeriod s.regs then .next (tick (clearCount s)) else .next (countStrobe s)

end Sys2Proof.Machine
end

