-- ==== Sys2Proof/Machine/Dispatch.lean ====
section
/-! DEFINITION. One arm per event, each one call of its meaning. -/

namespace Sys2Proof.Machine

def exec (i : Instr) (s : State) : Host.Outcome State Fault Refusal :=
  match i with
  | .rdFreq => Sys2Proof.Machine.execRdFreq s
  | .rdPeriod => Sys2Proof.Machine.execRdPeriod s
  | .rdPhase => Sys2Proof.Machine.execRdPhase s
  | .rdSample => Sys2Proof.Machine.execRdSample s
  | .rdRetargets => Sys2Proof.Machine.execRdRetargets s
  | .rdConfig => Sys2Proof.Machine.execRdConfig s
  | .rdFmin => Sys2Proof.Machine.execRdFmin s
  | .rdFmax => Sys2Proof.Machine.execRdFmax s
  | .wrFreq d => Sys2Proof.Machine.execWrFreq d s
  | .wrPeriod d => Sys2Proof.Machine.execWrPeriod d s
  | .wrPhase d => Sys2Proof.Machine.execWrPhase d s
  | .wrSample d => Sys2Proof.Machine.execWrSample d s
  | .wrRetargets d => Sys2Proof.Machine.execWrRetargets d s
  | .wrConfig d => Sys2Proof.Machine.execWrConfig d s
  | .wrFmin d => Sys2Proof.Machine.execWrFmin d s
  | .wrFmax d => Sys2Proof.Machine.execWrFmax d s
  | .strobe => Sys2Proof.Machine.execStrobe s
  | .reset => Sys2Proof.Machine.execReset s

end Sys2Proof.Machine
end

