-- ==== Sys2Proof/Machine/Event.lean ====
section
/-! DEFINITION. How an event word is taken: the three refusals of spec/60_exceptions.md R212 around exec, and runs of
several events (spec/00_scope.md R14, spec/70_reset_and_hazards.md R245). -/

namespace Sys2Proof.Machine

/-- One event taken by a built block: refused as `BadConfig` when the build breaks R8, as `BeforeReset` when it comes
before the first RESET (R42, R212), and run otherwise. -/
def takeEvent (i : Instr) (s : State) : Host.Outcome State Fault Refusal :=
  if s.cfg.valid then
    if s.afterReset || i == .reset then exec i s else .refused .beforeReset
  else .refused .badConfig

/-- One event word taken: a reserved word is refused by name (R80, R212). -/
def takeWord (w : EventWord) (s : State) : Host.Outcome State Fault Refusal :=
  if s.cfg.valid then
    match decode w with
    | .ok i => takeEvent i s
    | .error (.reservedEvent v) => .refused (.reservedEvent v)
  else .refused .badConfig

/-- No word is pending: a cycle with no event, which changes no state (R72, R84, R245). -/
def takeNothing (s : State) : Host.Outcome State Fault Refusal :=
  if s.cfg.valid then .next s else .refused .badConfig

/-- What follows a next state; a fault or a refusal ends the run (R212). -/
def andThen {α : Type} (o : Host.Outcome α Fault Refusal) (f : α → Host.Outcome α Fault Refusal) :
    Host.Outcome α Fault Refusal :=
  match o with
  | .next s => f s
  | .fault x => .fault x
  | .refused r => .refused r

/-- A sequence of events, each seeing the effects of every earlier one (R59). -/
def runEvents : List Instr → State → Host.Outcome State Fault Refusal
  | [], s => takeNothing s
  | i :: is, s => andThen (takeEvent i s) (runEvents is)

/-- A sequence of event words (R245). -/
def runWords : List EventWord → State → Host.Outcome State Fault Refusal
  | [], s => takeNothing s
  | w :: ws, s => andThen (takeWord w s) (runWords ws)

end Sys2Proof.Machine
end

