-- ==== Sys2Proof/Machine/Step.lean ====
section
/-! DEFINITION. One step: the next pending event word is removed from the input and taken (spec/30_encoding.md R76). -/

namespace Sys2Proof.Machine

/-- One step of the machine. -/
def step (s : State) : Host.Outcome State Fault Refusal :=
  match s.inputs with
  | [] => takeNothing s
  | w :: rest => takeWord w { s with inputs := rest }

/-- `s` with an event word put before its pending input, so that the very next step takes it. -/
def State.withFetchWord (s : State) (nbits w : Nat) : State :=
  { s with inputs := tableWord nbits w :: s.inputs }

end Sys2Proof.Machine
end

