-- ==== Sys2Proof/Machine/Assembler.lean ====
section
/-! DEFINITION. The assembler of event programs (spec/30_encoding.md R83, R84): the words of a line, and the reading of a
program's text. The lexical conventions that the spec leaves open are in the assumption log, entry 12. -/

namespace Sys2Proof.Machine

open Sys2Proof.Asm

/-- The word an immediate stands for (R83). -/
def immWord (imm : Imm) : Word :=
  match imm with
  | .hex v => BitVec.ofNat 32 v
  | .dec v => BitVec.ofNat 32 v
  | .neg v => uint32 (-(v : Int))

/-- The event an item stands for (R83). -/
def itemEvent (i : Item) : Instr :=
  match i with
  | .reset => .reset
  | .strobe => .strobe
  | .rd r => readEvent r
  | .wr r imm => writeEvent r (immWord imm)

/-- `floor(X · 2^16 + 1/2)` for `X = ± digits / 10^scale`, in exact integers (R84). -/
def setfRaw (x : Decimal) : Int :=
  let m : Int := if x.negative then -(x.digits : Int) else x.digits
  (2 * m * 65536 + 10 ^ x.scale) / (2 * 10 ^ x.scale)

/-- `setf X`: the word to write, refused outside `[-2^31, 2^31 - 1]` (R84). -/
def setfWord (x : Decimal) : Option Word :=
  if -2147483648 ≤ setfRaw x ∧ setfRaw x ≤ 2147483647 then some (uint32 (setfRaw x)) else none

/-- The event words of a line; none where the assembler refuses it (R83, R84). -/
def assembleLine (g : GroupReading) (l : Line) : Option (List EventWord) :=
  match l with
  | .blank => some []
  | .nop => some []
  | .item i => if i.ok then some [encode (itemEvent i)] else none
  | .group is =>
    if groupOk g is && is.all (fun i => i.ok) then some (is.map (fun i => encode (itemEvent i))) else none
  | .strobes n => if 1 ≤ n then some (List.replicate n (encode .strobe)) else none
  | .setf x => (setfWord x).map (fun d => [encode (.wrFreq d)])

/-- All the values, or none if one is missing. -/
def allSome {α : Type} : List (Option α) → Option (List α)
  | [] => some []
  | none :: _ => none
  | some a :: rest => (allSome rest).map (fun as => a :: as)

/-- The event words of a program, one cycle a line. DESIGN CHOICE: one refused line refuses the whole program, where R84
speaks of the line alone (assumption log, entry 23). -/
def assemble (g : GroupReading) (ls : List Line) : Option (List EventWord) :=
  (allSome (ls.map (assembleLine g))).map List.flatten

/-- A token of a line: a run of characters, or one of the five punctuation characters. -/
inductive Token where
  | word (cs : List Char)
  | punct (c : Char)
  deriving DecidableEq, Repr

/-- The opening brace, U+007B. -/
def openBrace : Char := Char.ofNat 123

/-- The closing brace, U+007D. -/
def closeBrace : Char := Char.ofNat 125

def isPunct (c : Char) : Bool := c == ',' || c == '*' || c == '|' || c == openBrace || c == closeBrace

def isBlank (c : Char) : Bool := c == ' ' || c == '\t' || c == '\r'

/-- The part of a line before a comment, which starts with two slashes (R83). -/
def stripComment : List Char → List Char
  | [] => []
  | [c] => [c]
  | c :: d :: cs => if c == '/' && d == '/' then [] else c :: stripComment (d :: cs)

def flushWord (cur : List Char) : List Token := if cur.isEmpty then [] else [.word cur.reverse]

/-- The tokens of a line; `cur` is the run of characters being read, last one first. -/
def lexAux : List Char → List Char → List Token
  | [], cur => flushWord cur
  | c :: cs, cur =>
    if isBlank c then flushWord cur ++ lexAux cs []
    else if isPunct c then flushWord cur ++ .punct c :: lexAux cs []
    else lexAux cs (c :: cur)

def lexLine (cs : List Char) : List Token := lexAux (stripComment cs) []

/-- The number a non-empty run of digits writes in a base. -/
def digitsValue (base : Nat) (digit : Char → Option Nat) (cs : List Char) : Option Nat :=
  if cs.isEmpty then none
  else (allSome (cs.map digit)).map (fun ds => ds.foldl (fun acc d => acc * base + d) 0)

def decDigit (c : Char) : Option Nat :=
  if '0'.toNat ≤ c.toNat ∧ c.toNat ≤ '9'.toNat then some (c.toNat - '0'.toNat) else none

def hexDigit (c : Char) : Option Nat :=
  if '0'.toNat ≤ c.toNat ∧ c.toNat ≤ '9'.toNat then some (c.toNat - '0'.toNat)
  else if 'A'.toNat ≤ c.toNat ∧ c.toNat ≤ 'F'.toNat then some (c.toNat - 'A'.toNat + 10)
  else if 'a'.toNat ≤ c.toNat ∧ c.toNat ≤ 'f'.toNat then some (c.toNat - 'a'.toNat + 10)
  else none

/-- A hexadecimal literal may hold `_` as a digit separator (R10). -/
def parseImm (cs : List Char) : Option Imm :=
  match cs with
  | '0' :: 'x' :: ds => (digitsValue 16 hexDigit (ds.filter (fun c => c != '_'))).map Imm.hex
  | '-' :: ds => (digitsValue 10 decDigit ds).map Imm.neg
  | ds => (digitsValue 10 decDigit ds).map Imm.dec

/-- An unsigned decimal with an optional fraction part. -/
def parseUnsigned (negative : Bool) (cs : List Char) : Option Decimal :=
  let whole := cs.takeWhile (fun c => c != '.')
  match cs.dropWhile (fun c => c != '.') with
  | [] => (digitsValue 10 decDigit whole).map (fun v => ⟨negative, v, 0⟩)
  | _ :: frac =>
    if whole.isEmpty || frac.isEmpty then none
    else (digitsValue 10 decDigit (whole ++ frac)).map (fun v => ⟨negative, v, frac.length⟩)

def parseDecimal (cs : List Char) : Option Decimal :=
  match cs with
  | '-' :: ds => parseUnsigned true ds
  | ds => parseUnsigned false ds

/-- The register names of R83, in upper case. -/
def regNames : List (List Char × RegName) :=
  [(['F', 'R', 'E', 'Q'], .freq),
   (['P', 'E', 'R', 'I', 'O', 'D'], .period),
   (['P', 'H', 'A', 'S', 'E'], .phase),
   (['S', 'A', 'M', 'P', 'L', 'E'], .sample),
   (['R', 'E', 'T', 'A', 'R', 'G', 'E', 'T', 'S'], .retargets),
   (['C', 'O', 'N', 'F', 'I', 'G'], .config),
   (['F', 'M', 'I', 'N'], .fmin),
   (['F', 'M', 'A', 'X'], .fmax)]

def parseReg (cs : List Char) : Option RegName := regNames.lookup cs

/-- An item of R83. DESIGN CHOICE: `setf X`, `nop` and `strobe * n` are lines and no items, so none may stand in a group:
R84 does not say (assumption log, entry 22). -/
def parseItem (ts : List Token) : Option Item :=
  match ts with
  | [.word w] =>
    if w = ['r', 'e', 's', 'e', 't'] then some .reset
    else if w = ['s', 't', 'r', 'o', 'b', 'e'] then some .strobe
    else none
  | [.word w, .word n] => if w = ['r', 'd'] then (parseReg n).map Item.rd else none
  | [.word w, .word n, .punct p, .word v] =>
    if w = ['w', 'r'] ∧ p = ',' then
      match parseReg n, parseImm v with
      | some r, some imm => some (.wr r imm)
      | _, _ => none
    else none
  | _ => none

/-- The runs of tokens between the bars of a group. -/
def splitBars : List Token → List (List Token)
  | [] => [[]]
  | t :: ts =>
    if t = .punct '|' then [] :: splitBars ts
    else
      match splitBars ts with
      | [] => [[t]]
      | seg :: segs => (t :: seg) :: segs

/-- The inside of a group, without its closing brace; one item alone is read as a group too (assumption log, entry 21). -/
def parseGroup (ts : List Token) : Option Line :=
  if ts.getLast? = some (.punct closeBrace) then
    (allSome ((splitBars ts.dropLast).map parseItem)).map Line.group
  else none

/-- A line of an event program (R83, R84); none where it is none. DESIGN CHOICE: the `n` of `strobe * n` is written in
unsigned decimal digits only, where R84 does not say how it is spelled (assumption log, entry 24). -/
def parseTokens (ts : List Token) : Option Line :=
  match ts with
  | [] => some .blank
  | .punct c :: rest => if c = openBrace then parseGroup rest else none
  | [.word w] => if w = ['n', 'o', 'p'] then some .nop else (parseItem ts).map Line.item
  | [.word w, .word x] =>
    if w = ['s', 'e', 't', 'f'] then (parseDecimal x).map Line.setf else (parseItem ts).map Line.item
  | [.word w, .punct p, .word n] =>
    if w = ['s', 't', 'r', 'o', 'b', 'e'] ∧ p = '*' then (digitsValue 10 decDigit n).map Line.strobes else none
  | _ => (parseItem ts).map Line.item

/-- The lines of a text, without their line ends. -/
def splitLines : List Char → List (List Char)
  | [] => [[]]
  | c :: cs =>
    if c = '\n' then [] :: splitLines cs
    else
      match splitLines cs with
      | [] => [[c]]
      | l :: ls => (c :: l) :: ls

/-- The lines of an event program's text; none where one of them is no line of R83 and R84 (assumption log, entry 23). -/
def parseProgram (text : List Char) : Option (List Line) :=
  allSome ((splitLines text).map (fun l => parseTokens (lexLine l)))

/-- The event words of an event program's text (R83, R84). -/
def assembleText (g : GroupReading) (text : List Char) : Option (List EventWord) := (parseProgram text).bind (assemble g)

end Sys2Proof.Machine
end

