-- ==== Sys2Proof/Machine/Bus.lean ====
section
/-! DEFINITION. The block's one address space, the window of eight words (spec/20_memory.md R50, R57), the byte-address
spelling of its accesses (spec/00_scope.md R13), and the choices the spec makes for a bridge to a byte bus (R52, R53). -/

namespace Sys2Proof.Machine

/-- The byte address of a register, `4 · REG` (R50). -/
def byteAddr (r : RegName) : Nat := 4 * (indexOfReg r).toNat

/-- The register at a byte address; no other address exists (R50, R57). -/
def regAt (a : Nat) : Option RegName :=
  if a % 4 = 0 ∧ a < 32 then some (regOfIndex (BitVec.ofNat 3 (a / 4))) else none

/-- `MemRead(a, 4)`: another spelling of `RD_<reg>` (R13). -/
def memRead (a : Nat) : Option Instr := (regAt a).map readEvent

/-- `MemWrite(a, 4, v)`: another spelling of `WR_<reg>(v)` (R13). -/
def memWrite (a : Nat) (v : Word) : Option Instr := (regAt a).map (fun r => writeEvent r v)

/-- The register a bridge selects for a bus byte address: it drops `addr[1:0]` (R53), and the window stands at
ZELLA_BASE (R57). DESIGN CHOICE: `addr[1:0]` is dropped before the base is subtracted, so a window at a base that is no
multiple of 4 has no register that can be reached; the spec gives ZELLA_BASE no constraint and does not say
(assumption log, entry 20). -/
def bridgeReg (c : Config) (addr : Nat) : Option RegName :=
  if c.zellaBase ≤ addr / 4 * 4 then regAt (addr / 4 * 4 - c.zellaBase) else none

/-- Byte lane `k` of a register value at a little-endian bridge: bits `8k+7 : 8k` (R52). -/
def laneByte (v : Word) (k : Nat) : BitVec 8 := v.extractLsb' (8 * k) 8

end Sys2Proof.Machine
end

