-- ==== Sys2Proof/Machine/Ports.lean ====
section
/-! DEFINITION. The port level: the inputs of a clock cycle, the events they become, and the outputs
(spec/30_encoding.md R70 to R75). The two output pulses are state here and not in State, since they are the port form of
observation events (spec/10_state.md R31). -/

namespace Sys2Proof.Machine

/-- The input ports sampled at a rising edge (R70). -/
structure PortIn where
  rst : Bool
  usStrobe : Bool
  busSel : Bool
  busWe : Bool
  busAddr : BitVec 3
  busWdata : Word
  deriving DecidableEq, Repr

/-- The output ports in a cycle (R70). -/
structure PortOut where
  busRdata : Word
  dacA : Nat
  dacB : Nat
  tick : Bool
  retarget : Bool
  deriving DecidableEq, Repr

/-- The block with its registered output pulses: `tick` and `retarget` of the cycle after an edge (R75). -/
structure Board where
  st : State
  tickPulse : Bool
  retargetPulse : Bool
  deriving DecidableEq, Repr

/-- The read event of a cycle, if it has one (R72). -/
def cycleRead (p : PortIn) : Option RegName :=
  if !p.rst && p.busSel && !p.busWe then some (regOfIndex p.busAddr) else none

/-- The events of a cycle, in their fixed order: a reset discards the rest; otherwise read, strobe, write (R72). -/
def eventsOf (p : PortIn) : List Instr :=
  if p.rst then [.reset]
  else
    (if p.busSel && !p.busWe then [readEvent (regOfIndex p.busAddr)] else []) ++
    (if p.usStrobe then [.strobe] else []) ++
    (if p.busSel && p.busWe then [writeEvent (regOfIndex p.busAddr) p.busWdata] else [])

/-- `bus_rdata`: the value of the register read in this cycle, from the state before its edge, and 0 in a cycle with no
read event (R73). -/
def busRdata (p : PortIn) (s : State) : Word :=
  match cycleRead p with
  | some r => regValue r s
  | none => 0#32

/-- The outputs in a cycle (R73, R74, R75). Before the first RESET they are unspecified (R42), so there is no value. -/
def outputs (b : Board) (p : PortIn) : Option PortOut :=
  if b.st.afterReset then
    some
      { busRdata := busRdata p b.st
        dacA := outA b.st
        dacB := outB b.st
        tick := b.tickPulse
        retarget := b.retargetPulse }
  else none

/-- What was observed between two states of a run, the trace being append-only. -/
def newObs (s t : State) : List Obs := t.trace.drop s.trace.length

/-- The rising edge that ends a cycle: the cycle's events run in order, and each pulse of the next cycle says whether a
TICK or a changing WR_FREQ happened at this edge (R71, R75). -/
def cycle (p : PortIn) (b : Board) : Host.Outcome Board Fault Refusal :=
  match runEvents (eventsOf p) b.st with
  | .next t =>
    .next
      { st := t
        tickPulse := !(samplesOf (newObs b.st t)).isEmpty
        retargetPulse := !(retargetsOf (newObs b.st t)).isEmpty }
  | .fault f => .fault f
  | .refused r => .refused r

/-- The board right after a RESET edge (R231). -/
def boardOfBuild (c : Config) : Board :=
  { st := State.ofBuild c, tickPulse := false, retargetPulse := false }

end Sys2Proof.Machine
end

