-- ==== Sys2Proof/Safety.lean ====
section
/-! DEFINITION. What counts as a good state of the block: the invariants that spec/10_state.md R23 to R28 and
spec/41_sampler.md R122 give every reachable state. -/

namespace Sys2Proof.Machine

/-- The relations between the fields of S in every state reached from a RESET: both indices inside the table, a quarter
period apart (R23, R24, R25), the frequency in range with its own period (R26, R27, R159), the count below the period
(R28, R122). -/
abbrev RegsInv (c : Config) (r : Regs) : Prop :=
  r.idxA.toNat < c.N ∧ r.idxB.toNat < c.N ∧
  r.idxA.toNat = (r.idxB.toNat + c.Q) % c.N ∧
  c.freqMin ≤ (r.freq.toNat : Int) ∧ (r.freq.toNat : Int) ≤ c.freqMax ∧
  (r.period.toNat : Int) = periodOf c (r.freq.toNat : Int) ∧
  r.tcnt.toNat < r.period.toNat

/-- The invariant of a run: the build is valid, and after the first RESET the registers are as `RegsInv` says. -/
abbrev Inv (s : State) : Prop :=
  s.cfg.valid = true ∧ (s.afterReset = true → RegsInv s.cfg s.regs)

/-- A state in which events run: the build is valid, a RESET has happened, and the invariant holds. -/
abbrev Live (s : State) : Prop :=
  s.cfg.valid = true ∧ s.afterReset = true ∧ RegsInv s.cfg s.regs

/-- An event that leaves the tick generator alone or only counts: no RESET, and no WR_FREQ that changes the frequency
`f` (spec/41_sampler.md R123). -/
def quiet (c : Config) (f : Word) (i : Instr) : Bool :=
  match i with
  | .reset => false
  | .wrFreq d => uint32 (clampFreq c d) == f
  | .rdFreq => true
  | .rdPeriod => true
  | .rdPhase => true
  | .rdSample => true
  | .rdRetargets => true
  | .rdConfig => true
  | .rdFmin => true
  | .rdFmax => true
  | .wrPeriod _ => true
  | .wrPhase _ => true
  | .wrSample _ => true
  | .wrRetargets _ => true
  | .wrConfig _ => true
  | .wrFmin _ => true
  | .wrFmax _ => true
  | .strobe => true

/-- The number of STROBE events in a sequence. -/
def strobeCount (es : List Instr) : Nat := es.count .strobe

/-- A fair time base: in an infinite run, infinitely many events are STROBE (spec/70_reset_and_hazards.md R244). The step
does not assume it, so a claim that rests on it takes it as a hypothesis. -/
def FairStrobes (w : Nat → Instr) : Prop := ∀ n, ∃ m, n ≤ m ∧ w m = .strobe

/-- The first `n` events of an infinite sequence. -/
def firstEvents (w : Nat → Instr) (n : Nat) : List Instr := (List.range n).map w

/-- What no event but RESET writes beside S and the observation: the build, the flag of R42 and the pending input. -/
abbrev SameSetup (s t : State) : Prop :=
  t.cfg = s.cfg ∧ t.afterReset = s.afterReset ∧ t.inputs = s.inputs

/-- A read event completes, returns `v` as the value of register `r`, and writes nothing
(spec/20_memory.md R55). -/
def ReadReturns (i : Instr) (r : RegName) (v : Word) (s : State) : Prop :=
  ∃ t, exec i s = .next t ∧ t.regs = s.regs ∧ SameSetup s t ∧ t.trace = s.trace ++ [.read r v]

/-- Quiet stretches, each closed by a WR_FREQ that changes the frequency before a period is over: the retarget
starvation of spec/70_reset_and_hazards.md R236, from the frequency `f` and the count `k`. -/
def Starving (c : Config) : Int → Nat → List (List Instr × Word) → Prop
  | _, _, [] => True
  | f, k, (es, d) :: rest =>
    es.all (quiet c (uint32 f)) = true ∧ (k + strobeCount es : Int) < periodOf c f ∧ clampFreq c d ≠ f ∧
    Starving c (clampFreq c d) 0 rest

/-- The events of such stretches, in order. -/
def burstEvents (bursts : List (List Instr × Word)) : List Instr :=
  bursts.flatMap (fun b => b.1 ++ [.wrFreq b.2])

end Sys2Proof.Machine
end

