-- ==== Sys2Proof/Certificates/Slice0/Obligations.lean ====
section
/-! DEFINITION. The statements for the provers. Each quantifies over every build (`Config`), valid where it says so. -/

open Sys2Proof Sys2Proof.Machine Sys2Proof.Asm

/-! ### Encoding -/

/-- A few of the words of spec/95_test_vectors.md 2.6, written out, decode to their events. -/
def Obligations.DecodesWrittenWords : Prop :=
  decode 0x1700000000#40 = .ok .rdFmax ∧ decode 0x2712345678#40 = .ok (.wrFmax 0x12345678#32) ∧
  decode 0x2000320000#40 = .ok (.wrFreq 0x00320000#32) ∧ decode 0x20FFFFFFFF#40 = .ok (.wrFreq 0xFFFFFFFF#32) ∧
  decode 0x4000000000#40 = .ok .strobe ∧ decode 0x8000000000#40 = .ok .reset ∧
  decode 0x1800000000#40 = .error (.reservedEvent 0x1800000000#40) ∧
  decode 0x4100000000#40 = .error (.reservedEvent 0x4100000000#40)

/-- Decode and encode agree, both ways: every event has one word, with every value of its operand, and every word that
decodes is the word of what it decodes to. -/
def Obligations.DecodeAndEncodeAgree : Prop :=
  ∀ (w : EventWord) (i : Instr), decode w = .ok i ↔ encode i = w

/-- R80: a word is well formed exactly when it matches a row of the opcode map; the reserved words are the four kinds the
rule lists; after the first RESET each is refused by name, and none can come from the ports. -/
def Obligations.ReservedWordsExactly : Prop :=
  (∀ w : EventWord, wordWellFormed w = true ↔ ∃ i, decode w = .ok i) ∧
  (∀ w : EventWord, wordWellFormed w = false ↔
    (eventKind w ≠ 0x1#4 ∧ eventKind w ≠ 0x2#4 ∧ eventKind w ≠ 0x4#4 ∧ eventKind w ≠ 0x8#4) ∨
    eventReserved w = true ∨
    (eventKind w = 0x1#4 ∧ eventData w ≠ 0#32) ∨
    ((eventKind w = 0x4#4 ∨ eventKind w = 0x8#4) ∧ (eventReg w ≠ 0#3 ∨ eventData w ≠ 0#32))) ∧
  (∀ (w : EventWord) (s : State), wordWellFormed w = false → s.cfg.valid = true → s.afterReset = true →
    decode w = .error (.reservedEvent w) ∧ takeWord w s = .refused (.reservedEvent w)) ∧
  (∀ (p : PortIn) (i : Instr), i ∈ eventsOf p → wordWellFormed (encode i) = true)

/-- The opcode map has 18 rows, every event's word selects the row of its mnemonic, and no word selects two rows: bits
39:32 of the patterns differ between every two rows, and every mask covers them. -/
def Obligations.OpcodeRowsDisjoint : Prop :=
  opcodeMap.length = 18 ∧
  (∀ i : Instr, ∃ r ∈ opcodeMap, r.mnemonic = mnemonicOf i ∧ r.selects (encode i) = true) ∧
  (∀ r ∈ opcodeMap, r.mask.extractLsb' 32 8 = 0xFF#8) ∧
  (∀ r₁ ∈ opcodeMap, ∀ r₂ ∈ opcodeMap,
    r₁.matchBits.extractLsb' 32 8 = r₂.matchBits.extractLsb' 32 8 → r₁ = r₂) ∧
  (∀ (w : EventWord), ∀ r₁ ∈ opcodeMap, ∀ r₂ ∈ opcodeMap,
    r₁.selects w = true → r₂.selects w = true → r₁ = r₂)

/-! ### The step -/

/-- A step runs the decoded event: the next pending word is removed from the input and its event is run on the state
without it. With nothing pending, the state stays (assumption log, entries 3 and 4). -/
def Obligations.StepRunsPendingEvent : Prop :=
  (∀ (s : State) (w : EventWord) (rest : List EventWord) (i : Instr),
    s.inputs = w :: rest → decode w = .ok i → s.cfg.valid = true → (s.afterReset = true ∨ i = .reset) →
    step s = exec i { s with inputs := rest }) ∧
  (∀ s : State, s.inputs = [] → s.cfg.valid = true → step s = .next s)

/-- R212: a step refuses exactly the three kinds of input, each by its name. Which name is given where two apply is the
model's choice (assumption log, entry 6), and this statement does not say. That a ROM of the wrong shape is a BadConfig
too, beside a build that breaks R8, is the model's choice (assumption log, entry 7). -/
def Obligations.RefusesExactlyThreeInputs : Prop :=
  (∀ (s : State) (r : Refusal), step s = .refused r →
    (r = .badConfig ∧ s.cfg.valid = false) ∨
    (∃ w rest, s.inputs = w :: rest ∧ r = .reservedEvent w ∧ wordWellFormed w = false) ∨
    (∃ w rest, s.inputs = w :: rest ∧ r = .beforeReset ∧ decode w ≠ .ok .reset ∧ s.afterReset = false)) ∧
  (∀ s : State, s.cfg.valid = false → ∃ r, step s = .refused r) ∧
  (∀ (s : State) (w : EventWord) (rest : List EventWord), s.inputs = w :: rest → wordWellFormed w = false →
    ∃ r, step s = .refused r) ∧
  (∀ (s : State) (w : EventWord) (rest : List EventWord), s.inputs = w :: rest → s.afterReset = false →
    decode w ≠ .ok .reset → ∃ r, step s = .refused r)

/-- R210: no event can fail. Every well-formed word completes, with the effect of its event; a write to a read-only register
is ignored without error; and no step faults. -/
def Obligations.NoEventFails : Prop :=
  (∀ (w : EventWord) (s : State), wordWellFormed w = true → s.cfg.valid = true → s.afterReset = true →
    ∃ i t, decode w = .ok i ∧ takeWord w s = .next t ∧ exec i s = .next t) ∧
  (∀ (r : RegName) (d : Word) (s : State), accessOfReg r = .RO → s.cfg.valid = true → s.afterReset = true →
    takeEvent (writeEvent r d) s = .next s) ∧
  (∀ (s : State) (f : Fault), step s ≠ .fault f)

/-- What every event leaves alone: the pending input, the build, all of the observation so far (at most one event is
appended), and the flag of R42, which only a RESET raises. -/
def Obligations.EveryEventFrame : Prop :=
  ∀ (i : Instr) (s t : State), exec i s = .next t →
    t.cfg = s.cfg ∧ t.inputs = s.inputs ∧ t.afterReset = (s.afterReset || i == .reset) ∧
    ∃ new : List Obs, t.trace = s.trace ++ new ∧ new.length ≤ 1

/-- R32: each field has its writers and no others. -/
def Obligations.FieldsHaveTheirWriters : Prop :=
  ∀ (i : Instr) (s t : State), exec i s = .next t →
    ((t.regs.idxA ≠ s.regs.idxA ∨ t.regs.idxB ≠ s.regs.idxB) → i = .strobe ∨ i = .reset) ∧
    ((t.regs.freq ≠ s.regs.freq ∨ t.regs.period ≠ s.regs.period ∨ t.regs.retargets ≠ s.regs.retargets) →
      (∃ d, i = .wrFreq d ∧ changesFreq s.cfg d s.regs = true) ∨ i = .reset) ∧
    (t.regs.tcnt ≠ s.regs.tcnt →
      i = .strobe ∨ (∃ d, i = .wrFreq d ∧ changesFreq s.cfg d s.regs = true ∧ t.regs.tcnt = 0#32) ∨ i = .reset)

/-! ### Reset and the invariant -/

/-- R230: from any state, RESET puts every field at its reset value, emits nothing, leaves the constants alone, acts the
same when repeated, discards the rest of its cycle, and leaves both pulses at 0. -/
def Obligations.ResetInstallsResetValues : Prop :=
  (∀ s : State, s.cfg.valid = true →
    ∃ t, exec .reset s = .next t ∧
      t.regs.idxA.toNat = s.cfg.Q ∧ t.regs.idxB.toNat = 0 ∧
      (t.regs.freq.toNat : Int) = s.cfg.freqReset ∧
      (t.regs.period.toNat : Int) = periodOf s.cfg s.cfg.freqReset ∧
      t.regs.tcnt.toNat = 0 ∧ t.regs.retargets.toNat = 0 ∧
      t.cfg = s.cfg ∧ t.inputs = s.inputs ∧ t.trace = s.trace ∧ t.afterReset = true ∧
      exec .reset t = .next t) ∧
  (∀ (p : PortIn) (b : Board), p.rst = true → b.st.cfg.valid = true →
    ∃ t, exec .reset b.st = .next t ∧ cycle p b = .next ⟨t, false, false⟩)

/-- R41: every register's word index, byte address and access, and its value right after RESET, in general and for the two
example builds. -/
def Obligations.RegisterFileAfterReset : Prop :=
  (∀ c : Config, c.valid = true → TableFormula c →
    ((regValue .freq (State.ofBuild c)).toNat : Int) = c.freqReset ∧
    ((regValue .period (State.ofBuild c)).toNat : Int) = periodOf c c.freqReset ∧
    (regValue .phase (State.ofBuild c)).toNat = c.Q * 65536 ∧
    (regValue .sample (State.ofBuild c)).toNat = c.M * 65536 + 2 ^ (c.R - 1) ∧
    (regValue .retargets (State.ofBuild c)).toNat = 0 ∧
    (regValue .config (State.ofBuild c)).toNat = c.R * 65536 + c.N ∧
    ((regValue .fmin (State.ofBuild c)).toNat : Int) = c.freqMin ∧
    ((regValue .fmax (State.ofBuild c)).toNat : Int) = c.freqMax) ∧
  (∀ n : BitVec 3, byteAddr (regOfIndex n) = 4 * n.toNat) ∧
  (∀ r : RegName, accessOfReg r = .RW ↔ r = .freq) ∧
  [RegName.freq, .period, .phase, .sample, .retargets, .config, .fmin, .fmax].map
    (fun r => (byteAddr r, regValue r (State.ofBuild EX1), regValue r (State.ofBuild EX2))) =
    [(0x00, 0x00010000#32, 0x00010000#32), (0x04, 0x00000682#32, 0x0001E848#32),
     (0x08, 0x00960000#32, 0x00020000#32), (0x0C, 0x0FFF0800#32, 0x000F0008#32),
     (0x10, 0x00000000#32, 0x00000000#32), (0x14, 0x000C0258#32, 0x00040008#32),
     (0x18, 0x00010000#32, 0x00010000#32), (0x1C, 0x00C80000#32, 0x7A120000#32)]

/-- R30 and R231: after a cycle with `rst = 1`, from any board at all (power-up included), the outputs show `table[Q] = M`
and `table[0] = 2^(R-1)`, both pulses are 0, and `bus_rdata` is 0 in a cycle without a read; `boardOfBuild` is such a
board. -/
def Obligations.OutputsAfterReset : Prop :=
  (∀ (b : Board) (q : PortIn), b.st.cfg.valid = true → TableFormula b.st.cfg → q.rst = true →
    ∃ b', cycle q b = .next b' ∧ ∀ p : PortIn, ∃ o, outputs b' p = some o ∧
      o.dacA = b.st.cfg.M ∧ o.dacB = 2 ^ (b.st.cfg.R - 1) ∧
      o.tick = false ∧ o.retarget = false ∧ (cycleRead p = none → o.busRdata = 0#32)) ∧
  (∀ (c : Config) (p : PortIn), c.valid = true → TableFormula c →
    ∃ o, outputs (boardOfBuild c) p = some o ∧ o.dacA = c.M ∧ o.dacB = 2 ^ (c.R - 1) ∧
      o.tick = false ∧ o.retarget = false ∧ (cycleRead p = none → o.busRdata = 0#32))

/-- The invariant holds right after reset, of the model's build and of every valid one. -/
def Obligations.InvariantHoldsAtReset : Prop :=
  Inv State.reset ∧ ∀ c : Config, c.valid = true → Inv (State.ofBuild c)

/-- Every step keeps the invariant. -/
def Obligations.StepKeepsInvariant : Prop :=
  ∀ s t : State, Inv s → step s = .next t → Inv t

/-- R25, R122, R159: in every state reached from power-up through a RESET, whatever the power-up values and the input, the
indices are a quarter period apart (and inside the table), the count is below the period, which is at least 1, and the
frequency is in range with its own period. -/
def Obligations.ReachableStatesKeepRelations : Prop :=
  ∀ (c : Config) (junk : Regs) (ws : List EventWord) (n : Nat) (t : State), c.valid = true →
    Host.Core.run Sys2Proof.core n { State.powerUp c junk with inputs := ws } = .next t → t.afterReset = true →
    t.cfg = c ∧
    t.regs.idxA.toNat < c.N ∧ t.regs.idxB.toNat < c.N ∧
    t.regs.idxA.toNat = (t.regs.idxB.toNat + c.Q) % c.N ∧
    t.regs.tcnt.toNat < t.regs.period.toNat ∧ 1 ≤ t.regs.period.toNat ∧
    c.freqMin ≤ (t.regs.freq.toNat : Int) ∧ (t.regs.freq.toNat : Int) ≤ c.freqMax ∧
    (t.regs.period.toNat : Int) = periodOf c (t.regs.freq.toNat : Int)

/-! ### The sampler -/

/-- R120, R121: the strobe that completes a period clears the count, advances both indices modulo N and emits the codes at
the new indices; any other strobe (the count below the period, R122) only counts. Nothing else changes. -/
def Obligations.StrobeCountsOrTicks : Prop :=
  (∀ s : State, s.cfg.valid = true → s.regs.tcnt.toNat + 1 = s.regs.period.toNat →
    ∃ t, exec .strobe s = .next t ∧
      t.regs.tcnt.toNat = 0 ∧
      t.regs.idxA.toNat = (s.regs.idxA.toNat + 1) % s.cfg.N ∧
      t.regs.idxB.toNat = (s.regs.idxB.toNat + 1) % s.cfg.N ∧
      t.regs.freq = s.regs.freq ∧ t.regs.period = s.regs.period ∧ t.regs.retargets = s.regs.retargets ∧
      t.trace = s.trace ++ [.sample (code s.cfg t.regs.idxA.toNat) (code s.cfg t.regs.idxB.toNat)] ∧
      SameSetup s t) ∧
  (∀ s : State, s.regs.tcnt.toNat + 1 < s.regs.period.toNat →
    ∃ t, exec .strobe s = .next t ∧
      t.regs.tcnt.toNat = s.regs.tcnt.toNat + 1 ∧
      t.regs.idxA = s.regs.idxA ∧ t.regs.idxB = s.regs.idxB ∧
      t.regs.freq = s.regs.freq ∧ t.regs.period = s.regs.period ∧ t.regs.retargets = s.regs.retargets ∧
      t.trace = s.trace ∧ SameSetup s t)

/-- R125: an event starts at most one TICK, and only a STROBE starts one; a TICK moves both indices, and without one no
event but RESET moves either. -/
def Obligations.AtMostOneTickPerEvent : Prop :=
  ∀ (i : Instr) (s t : State), s.cfg.valid = true → exec i s = .next t →
    (samplesOf (newObs s t)).length ≤ 1 ∧
    (samplesOf (newObs s t) ≠ [] → i = .strobe ∧
      t.regs.idxA.toNat = (s.regs.idxA.toNat + 1) % s.cfg.N ∧
      t.regs.idxB.toNat = (s.regs.idxB.toNat + 1) % s.cfg.N) ∧
    (samplesOf (newObs s t) = [] → i ≠ .reset → t.regs.idxA = s.regs.idxA ∧ t.regs.idxB = s.regs.idxB)

/-- R126: TICK keeps the quadrature relation, and every sample is `(table[(k + Q) mod N], table[k])` for the new index
`k` of channel B. -/
def Obligations.TickKeepsQuadrature : Prop :=
  ∀ s : State, s.cfg.valid = true → s.regs.tcnt.toNat + 1 = s.regs.period.toNat →
    s.regs.idxA.toNat = (s.regs.idxB.toNat + s.cfg.Q) % s.cfg.N →
    ∃ t, exec .strobe s = .next t ∧
      t.regs.idxA.toNat = (t.regs.idxB.toNat + s.cfg.Q) % s.cfg.N ∧
      samplesOf (newObs s t) =
        [(code s.cfg ((t.regs.idxB.toNat + s.cfg.Q) % s.cfg.N), code s.cfg t.regs.idxB.toNat)]

/-- R123: over any sequence of events with no RESET and no retarget, the ticks are those of a counter of strobes from
`tcnt` with one tick every `period` strobes, so the next one comes at the `(period - tcnt)`-th strobe. -/
def Obligations.TicksOfQuietRun : Prop :=
  ∀ (s : State) (es : List Instr), Live s → es.all (quiet s.cfg s.regs.freq) = true →
    ∃ t, runEvents es s = .next t ∧
      t.trace = s.trace ++ newObs s t ∧
      (samplesOf (newObs s t)).length = (s.regs.tcnt.toNat + strobeCount es) / s.regs.period.toNat ∧
      t.regs.tcnt.toNat = (s.regs.tcnt.toNat + strobeCount es) % s.regs.period.toNat ∧
      t.regs.freq = s.regs.freq ∧ t.regs.period = s.regs.period ∧ t.regs.retargets = s.regs.retargets

/-- R124: after a RESET, or after a WR_FREQ that changes the frequency, the first TICK comes at the p-th strobe, where `p`
is the period the event installs. -/
def Obligations.FirstTickAFullPeriodLater : Prop :=
  ∀ (s : State) (i : Instr), Live s →
    (i = .reset ∨ ∃ d, i = .wrFreq d ∧ clampFreq s.cfg d ≠ (s.regs.freq.toNat : Int)) →
    ∃ u, exec i s = .next u ∧
      ∀ es : List Instr, es.all (quiet u.cfg u.regs.freq) = true →
        ∃ t, runEvents (i :: es) s = .next t ∧
          (strobeCount es < u.regs.period.toNat → samplesOf (newObs s t) = []) ∧
          (strobeCount es = u.regs.period.toNat → (samplesOf (newObs s t)).length = 1)

/-- R244, R123: under a fair time base, once no RESET and no retarget comes any more, the ticks go on forever: every number
of samples is reached. -/
def Obligations.FairStrobesKeepTicking : Prop :=
  ∀ (s u : State) (w : Nat → Instr) (m : Nat), Live s → FairStrobes w →
    runEvents (firstEvents w m) s = .next u → (∀ n, m ≤ n → quiet u.cfg u.regs.freq (w n) = true) →
    ∀ k : Nat, ∃ (n : Nat) (t : State), m ≤ n ∧ runEvents (firstEvents w n) s = .next t ∧
      k ≤ (samplesOf (newObs s t)).length

/-- R128: whatever the retargets between, the `t`-th TICK after a RESET (`t = k + 1`) emits
`(table[(Q + t) mod N], table[t mod N])`, so the samples repeat every `N` ticks. -/
def Obligations.SampleSequenceAfterReset : Prop :=
  ∀ (s t : State) (es : List Instr), Instr.reset ∉ es → runEvents (.reset :: es) s = .next t →
    (∀ (k : Nat) (ab : Nat × Nat), (samplesOf (newObs s t))[k]? = some ab →
      ab = (code s.cfg ((s.cfg.Q + (k + 1)) % s.cfg.N), code s.cfg ((k + 1) % s.cfg.N))) ∧
    (∀ (k : Nat) (ab cd : Nat × Nat), (samplesOf (newObs s t))[k]? = some ab →
      (samplesOf (newObs s t))[k + s.cfg.N]? = some cd → ab = cd)

/-- R127: with no RESET between, the code channel A emits at a tick is the code channel B emits `Q` ticks later. -/
def Obligations.ChannelALeadsByQuarter : Prop :=
  ∀ (s t : State) (es : List Instr) (k : Nat) (ab cd : Nat × Nat), Live s → Instr.reset ∉ es →
    runEvents es s = .next t →
    (samplesOf (newObs s t))[k]? = some ab → (samplesOf (newObs s t))[k + s.cfg.Q]? = some cd → ab.1 = cd.2

/-- R129: with one strobe per microsecond, `f_out = 10^6 / (N · period)` satisfies
`Hz(freq) <= f_out < Hz(freq) · (period + 1) / period`; the example of EX1 at 50 Hz. -/
def Obligations.OutputFrequencyBounds : Prop :=
  (∀ s : State, Live s →
    outputHz s.cfg s.regs.period.toNat = 1000000 / ((s.cfg.N : Rat) * s.regs.period.toNat) ∧
    hertz s.regs.freq ≤ outputHz s.cfg s.regs.period.toNat ∧
    outputHz s.cfg s.regs.period.toNat <
      hertz s.regs.freq * (s.regs.period.toNat + 1) / s.regs.period.toNat) ∧
  periodOf EX1 0x00320000 = 33 ∧ outputHz EX1 33 = 1000000 / 19800

/-! ### The frequency converter -/

/-- R150: `P(f)` is `10^6 / (frequency · N)` for `frequency = f / 2^16` hertz, rounded down; exact quotients stay exact. -/
def Obligations.PeriodIsFloorOfQuotient : Prop :=
  (∀ (c : Config) (f : Int), c.valid = true → c.freqMin ≤ f → f ≤ c.freqMax →
    periodOf c f = ⌊(1000000 : Rat) / (((f : Rat) / 65536) * c.N)⌋ ∧
    1 ≤ periodOf c f ∧ periodOf c f ≤ 4294967295 ∧ 1 ≤ f * c.N) ∧
  periodOf EX2 0x61A80000 = 5 ∧ periodOf EX2 0x7A120000 = 4 ∧ periodOf EX2 0x7A11FFFF = 4 ∧
  periodOf EX1 0x00320000 = 33

/-- R151: `P` is non-increasing, at least 1, at most `K / 16 = 4 096 000 000`, and not injective. -/
def Obligations.PeriodFunctionProperties : Prop :=
  (∀ (c : Config) (f g : Int), c.valid = true → c.freqMin ≤ f → f ≤ g → g ≤ c.freqMax →
    periodOf c g ≤ periodOf c f ∧ 1 ≤ periodOf c g ∧ periodOf c f ≤ 4096000000) ∧
  periodOf EX1 0x00C7FFFF = 8 ∧ periodOf EX1 0x00C80000 = 8

/-- R152, R160, R161: the clamp of a word read as signed two's complement; its corner cases; every word with bit 31 set and
every zero select FREQ_MIN, every candidate above FREQ_MAX selects FREQ_MAX. -/
def Obligations.ClampOfWrittenWord : Prop :=
  (∀ (c : Config) (d : Word), c.valid = true →
    clampFreq c d = min (max d.toInt c.freqMin) c.freqMax ∧
    c.freqMin ≤ clampFreq c d ∧ clampFreq c d ≤ c.freqMax ∧ 0 < clampFreq c d ∧
    (d.toInt ≤ 0 → clampFreq c d = c.freqMin) ∧
    (d.getLsbD 31 = true → clampFreq c d = c.freqMin) ∧
    (c.freqMax < d.toInt → clampFreq c d = c.freqMax)) ∧
  (∀ c : Config, c.valid = true →
    clampFreq c 0x00000000#32 = c.freqMin ∧ clampFreq c 0xFFFF0000#32 = c.freqMin ∧
    clampFreq c 0x80000000#32 = c.freqMin ∧ clampFreq c 0x7FFFFFFF#32 = c.freqMax ∧
    clampFreq c (uint32 c.freqMin) = c.freqMin ∧ clampFreq c (uint32 c.freqMax) = c.freqMax) ∧
  clampFreq EX1 0x00FA0000#32 = 0x00C80000

/-- R153: a write whose clamped value differs from the current frequency installs it with its period, clears the count,
counts the retarget modulo 2^32 and emits it, and changes nothing else; any other write changes nothing at all. -/
def Obligations.FreqWriteRetargetsOnChange : Prop :=
  (∀ (s : State) (d : Word), s.cfg.valid = true → clampFreq s.cfg d ≠ (s.regs.freq.toNat : Int) →
    ∃ t, exec (.wrFreq d) s = .next t ∧
      (t.regs.freq.toNat : Int) = clampFreq s.cfg d ∧
      (t.regs.period.toNat : Int) = periodOf s.cfg (clampFreq s.cfg d) ∧
      t.regs.tcnt.toNat = 0 ∧
      t.regs.retargets.toNat = (s.regs.retargets.toNat + 1) % 2 ^ 32 ∧
      t.regs.idxA = s.regs.idxA ∧ t.regs.idxB = s.regs.idxB ∧
      t.trace = s.trace ++ [.retarget t.regs.freq t.regs.period] ∧ SameSetup s t) ∧
  (∀ (s : State) (d : Word), s.cfg.valid = true → clampFreq s.cfg d = (s.regs.freq.toNat : Int) →
    exec (.wrFreq d) s = .next s)

/-- R156: two candidates act alike exactly when their clamped words are equal, with no tolerance. -/
def Obligations.CandidatesEqualExactlyWhenClampsEqual : Prop :=
  ∀ (s : State) (d₁ d₂ : Word), s.cfg.valid = true →
    (exec (.wrFreq d₁) s = exec (.wrFreq d₂) s ↔ clampFreq s.cfg d₁ = clampFreq s.cfg d₂)

/-- R155: two writes of the same word with no other WR_FREQ (and no RESET) between make at most one retarget: one when the
first changes the frequency, none when it does not; the second changes nothing. -/
def Obligations.SecondWriteOfSameWordIsNoOp : Prop :=
  ∀ (s : State) (d : Word) (es : List Instr), s.cfg.valid = true → s.afterReset = true →
    Instr.reset ∉ es → (∀ x, Instr.wrFreq x ∉ es) →
    ∃ u t, exec (.wrFreq d) s = .next u ∧ runEvents (.wrFreq d :: es) s = .next t ∧
      exec (.wrFreq d) t = .next t ∧ runEvents (.wrFreq d :: (es ++ [.wrFreq d])) s = .next t ∧
      t.regs.retargets = u.regs.retargets ∧ retargetsOf (newObs s t) = retargetsOf (newObs s u) ∧
      (retargetsOf (newObs s t)).length ≤ 1 ∧
      (clampFreq s.cfg d ≠ (s.regs.freq.toNat : Int) → (retargetsOf (newObs s t)).length = 1 ∧
        t.regs.retargets.toNat = (s.regs.retargets.toNat + 1) % 2 ^ 32) ∧
      (clampFreq s.cfg d = (s.regs.freq.toNat : Int) → retargetsOf (newObs s t) = [] ∧
        t.regs.retargets = s.regs.retargets)

/-- R29: `retargets` counts, modulo 2^32, the WR_FREQ events that changed the frequency since the RESET. -/
def Obligations.RetargetsRegisterCountsRetargets : Prop :=
  ∀ (s t : State) (es : List Instr), Instr.reset ∉ es → runEvents (.reset :: es) s = .next t →
    t.regs.retargets.toNat = (retargetsOf (newObs s t)).length % 2 ^ 32

/-- R158: a retarget changes neither index nor either output. -/
def Obligations.RetargetIsPhaseContinuous : Prop :=
  ∀ (s : State) (d : Word), ∃ t, exec (.wrFreq d) s = .next t ∧
    t.regs.idxA = s.regs.idxA ∧ t.regs.idxB = s.regs.idxB ∧ outA t = outA s ∧ outB t = outB s ∧
    samplesOf (newObs s t) = []

/-- R237: a write of the unchanged frequency, anywhere in a run, makes no difference to the run. -/
def Obligations.UnchangedWriteDoesNotDisturb : Prop :=
  ∀ (s s₁ : State) (d : Word) (es₁ es₂ : List Instr), s.afterReset = true → runEvents es₁ s = .next s₁ →
    clampFreq s₁.cfg d = (s₁.regs.freq.toNat : Int) →
    runEvents (es₁ ++ .wrFreq d :: es₂) s = runEvents (es₁ ++ es₂) s

/-- R236: from any count, while changing writes keep arriving less than a period apart, no TICK happens, the outputs stand
still, every write retargets, and nothing fails. -/
def Obligations.RetargetStarvation : Prop :=
  ∀ (s : State) (bursts : List (List Instr × Word)), Live s →
    Starving s.cfg s.regs.freq.toNat s.regs.tcnt.toNat bursts →
    ∃ t, runEvents (burstEvents bursts) s = .next t ∧
      samplesOf (newObs s t) = [] ∧ outA t = outA s ∧ outB t = outB s ∧
      (retargetsOf (newObs s t)).length = bursts.length

/-! ### Register reads and ignored writes -/

/-- R154, R180, R183, R185, R186: the reads of a whole 32-bit field or constant return it and write nothing;
in a live state the frequency read lies in [FREQ_MIN, FREQ_MAX] with bit 31 clear and the period read is at least 1; FMIN
is positive, and FMAX is at least FREQ_MIN and below 2^31. -/
def Obligations.WholeRegisterReads : Prop :=
  ∀ s : State, s.cfg.valid = true →
    ReadReturns .rdFreq .freq s.regs.freq s ∧
    ReadReturns .rdPeriod .period s.regs.period s ∧
    ReadReturns .rdRetargets .retargets s.regs.retargets s ∧
    (∃ v : Word, (v.toNat : Int) = s.cfg.freqMin ∧ 0 < v.toNat ∧ ReadReturns .rdFmin .fmin v s) ∧
    (∃ v : Word, (v.toNat : Int) = s.cfg.freqMax ∧ s.cfg.freqMin ≤ (v.toNat : Int) ∧ v.toNat ≤ 0x7FFFFFFF ∧
      ReadReturns .rdFmax .fmax v s) ∧
    (Live s → s.cfg.freqMin ≤ (s.regs.freq.toNat : Int) ∧ (s.regs.freq.toNat : Int) ≤ s.cfg.freqMax ∧
      s.regs.freq.getLsbD 31 = false ∧ 1 ≤ s.regs.period.toNat)

/-- R181: RD_PHASE returns idxA in bits 31:16 and idxB in bits 15:0, from one instant; in a live state the two are a
quarter period apart and below N. -/
def Obligations.PhaseReadPacksIndices : Prop :=
  ∀ s : State, ∃ v : Word, ReadReturns .rdPhase .phase v s ∧
    v.extractLsb' 16 16 = s.regs.idxA ∧ v.extractLsb' 0 16 = s.regs.idxB ∧
    (Live s →
      (v.extractLsb' 16 16).toNat = ((v.extractLsb' 0 16).toNat + s.cfg.Q) % s.cfg.N ∧
      (v.extractLsb' 16 16).toNat ≤ s.cfg.N - 1 ∧ (v.extractLsb' 0 16).toNat ≤ s.cfg.N - 1)

/-- R182: RD_SAMPLE returns the two codes on the outputs, each below 2^R and zero-extended to 16 bits. -/
def Obligations.SampleReadPacksCodes : Prop :=
  ∀ s : State, s.cfg.valid = true → ∃ v : Word, ReadReturns .rdSample .sample v s ∧
    (v.extractLsb' 16 16).toNat = code s.cfg s.regs.idxA.toNat ∧
    (v.extractLsb' 0 16).toNat = code s.cfg s.regs.idxB.toNat ∧
    (v.extractLsb' 16 16).toNat = outA s ∧ (v.extractLsb' 0 16).toNat = outB s ∧
    (v.extractLsb' 16 16).toNat < 2 ^ s.cfg.R ∧ (v.extractLsb' 0 16).toNat < 2 ^ s.cfg.R

/-- R184: RD_CONFIG returns R in bits 20:16, N in bits 15:0, and 0 in bits 31:21. -/
def Obligations.ConfigReadPacksParameters : Prop :=
  ∀ s : State, s.cfg.valid = true → ∃ v : Word, ReadReturns .rdConfig .config v s ∧
    v.extractLsb' 21 11 = 0#11 ∧ (v.extractLsb' 16 5).toNat = s.cfg.R ∧ (v.extractLsb' 0 16).toNat = s.cfg.N

/-- R55: a read changes no field of S and emits no Sample or Retarget, and the same register read twice with nothing
between returns the same value. -/
def Obligations.ReadsHaveNoSideEffects : Prop :=
  ∀ (r : RegName) (s : State), ∃ t u v,
    exec (readEvent r) s = .next t ∧ exec (readEvent r) t = .next u ∧
    t.regs = s.regs ∧ u.regs = s.regs ∧ SameSetup s t ∧
    samplesOf (newObs s t) = [] ∧ retargetsOf (newObs s t) = [] ∧
    readsOf (newObs s u) = [(r, v), (r, v)]

/-- R187 to R193: every write to a read-only register, of any value, leaves the whole state alone. -/
def Obligations.ReadOnlyWritesIgnored : Prop :=
  ∀ (s : State) (d : Word),
    exec (.wrPeriod d) s = .next s ∧ exec (.wrPhase d) s = .next s ∧ exec (.wrSample d) s = .next s ∧
    exec (.wrRetargets d) s = .next s ∧ exec (.wrConfig d) s = .next s ∧ exec (.wrFmin d) s = .next s ∧
    exec (.wrFmax d) s = .next s

/-- R59, R154: a read of FREQ after a write of FREQ returns the clamped frequency, not the word written. -/
def Obligations.ReadAfterWriteSeesClamp : Prop :=
  ∀ (s : State) (d : Word), s.cfg.valid = true →
    ∃ t u v, exec (.wrFreq d) s = .next t ∧ exec .rdFreq t = .next u ∧
      readsOf (newObs t u) = [(.freq, v)] ∧ (v.toNat : Int) = clampFreq s.cfg d

/-- R43: no register shows the hidden count: two states that differ in `tcnt` only answer every read alike. -/
def Obligations.HiddenCountIsUnreadable : Prop :=
  ∀ (r : RegName) (s : State) (k : Word), ∃ t u,
    exec (readEvent r) s = .next t ∧
    exec (readEvent r) { s with regs := { s.regs with tcnt := k } } = .next u ∧
    newObs s t = newObs { s with regs := { s.regs with tcnt := k } } u

/-- R50, R57: byte address `4 · REG` names its register and no other address names one, and MemRead and MemWrite there are
the register's events (R13). -/
def Obligations.WindowOfEightWords : Prop :=
  (∀ (a : Nat) (r : RegName), regAt a = some r ↔ a = byteAddr r) ∧
  (∀ r : RegName, byteAddr r = 4 * (indexOfReg r).toNat ∧ byteAddr r ≤ 0x1C) ∧
  (∀ (r : RegName) (v : Word), memRead (byteAddr r) = some (readEvent r) ∧
    memWrite (byteAddr r) v = some (writeEvent r v))

/-! ### The ports -/

/-- R72: a cycle's events, in their order, run atomically in that order; and the two consequences for a strobe that
completes a period in the same cycle as a write that retargets: the tick comes first, under the old period, and then the
count is cleared. -/
def Obligations.CycleTakesEventsInOrder : Prop :=
  (∀ p : PortIn, p.rst = true → eventsOf p = [.reset]) ∧
  (∀ p : PortIn, p.rst = false →
    ∃ rd st wr : List Instr, eventsOf p = rd ++ st ++ wr ∧
      rd = (if p.busSel = true ∧ p.busWe = false then [readEvent (regOfIndex p.busAddr)] else []) ∧
      st = (if p.usStrobe = true then [.strobe] else []) ∧
      wr = (if p.busSel = true ∧ p.busWe = true then [writeEvent (regOfIndex p.busAddr) p.busWdata] else [])) ∧
  (∀ (p : PortIn) (b b' : Board), cycle p b = .next b' → runEvents (eventsOf p) b.st = .next b'.st) ∧
  (∀ (p : PortIn) (b : Board), Live b.st → p.rst = false → p.usStrobe = true → p.busSel = true → p.busWe = true →
    regOfIndex p.busAddr = .freq → completesPeriod b.st.regs = true →
    clampFreq b.st.cfg p.busWdata ≠ (b.st.regs.freq.toNat : Int) →
    ∃ (b' : Board) (x y : Nat) (f q : Word), cycle p b = .next b' ∧
      newObs b.st b'.st = [.sample x y, .retarget f q] ∧
      b'.st.regs.idxB.toNat = (b.st.regs.idxB.toNat + 1) % b.st.cfg.N ∧
      b'.st.regs.tcnt = 0#32 ∧ b'.tickPulse = true ∧ b'.retargetPulse = true)

/-- R73: in a cycle with a read event `bus_rdata` is the value the read's rule returns, from the state before the edge; in
every other cycle it is 0. -/
def Obligations.BusReadDataFromBeforeEdge : Prop :=
  ∀ (p : PortIn) (b : Board), b.st.afterReset = true → ∃ o, outputs b p = some o ∧
    (∀ r, cycleRead p = some r →
      readEvent r ∈ eventsOf p ∧ ReadReturns (readEvent r) r o.busRdata b.st) ∧
    (cycleRead p = none → o.busRdata = 0#32 ∧ ∀ r, readEvent r ∉ eventsOf p)

/-- R74: the outputs show the codes at the indices, and an edge with no TICK and no RESET leaves them alone. -/
def Obligations.DacFollowsIndices : Prop :=
  ∀ (p : PortIn) (b : Board), Live b.st → ∃ o, outputs b p = some o ∧
    o.dacA = code b.st.cfg b.st.regs.idxA.toNat ∧ o.dacB = code b.st.cfg b.st.regs.idxB.toNat ∧
    ∃ b', cycle p b = .next b' ∧
      (p.rst = false → samplesOf (newObs b.st b'.st) = [] → ∀ p' o', outputs b' p' = some o' →
        o'.dacA = o.dacA ∧ o'.dacB = o.dacB)

/-- R75: `tick` is 1 after exactly the edges at which a TICK happened, `retarget` after exactly those at which a WR_FREQ
changed the frequency, and both are 0 after a RESET edge. -/
def Obligations.PulsesFollowTheirEvents : Prop :=
  ∀ (p : PortIn) (b : Board), Live b.st → ∃ b', cycle p b = .next b' ∧ Live b'.st ∧
    (b'.tickPulse = true ↔ p.rst = false ∧ p.usStrobe = true ∧ completesPeriod b.st.regs = true) ∧
    (b'.retargetPulse = true ↔ p.rst = false ∧ p.busSel = true ∧ p.busWe = true ∧
      regOfIndex p.busAddr = .freq ∧ clampFreq b.st.cfg p.busWdata ≠ (b.st.regs.freq.toNat : Int)) ∧
    (p.rst = true → b'.tickPulse = false ∧ b'.retargetPulse = false)

/-! ### The sine table -/

/-- R102: every entry lies in `[0, M]`; this follows from the formula of R101 alone. -/
def Obligations.TableEntriesInRange : Prop :=
  ∀ (c : Config) (i : Nat), TableFormula c → i < c.N → code c i ≤ c.M

/-- R103: the extremes are reached, at a quarter and at three quarters of the period. -/
def Obligations.TableReachesExtremes : Prop :=
  ∀ c : Config, c.valid = true → TableFormula c → code c c.Q = c.M ∧ code c (3 * c.Q) = 0

/-- R104: the entries at 0 and N/2 are the midpoint rounded half up. -/
def Obligations.TableMidpoints : Prop :=
  ∀ c : Config, c.valid = true → TableFormula c →
    code c 0 = 2 ^ (c.R - 1) ∧ code c (c.N / 2) = 2 ^ (c.R - 1)

/-- R105: the table is odd about 0 and π, up to the two ties. -/
def Obligations.TableOddSymmetry : Prop :=
  ∀ (c : Config) (i : Nat), c.valid = true → TableFormula c → i < c.N →
    ((i ≠ 0 ∧ i ≠ c.N / 2) → code c i + code c ((c.N - i) % c.N) = c.M) ∧
    ((i = 0 ∨ i = c.N / 2) → code c i + code c ((c.N - i) % c.N) = c.M + 1 ∧
      code c i = 2 ^ (c.R - 1) ∧ code c ((c.N - i) % c.N) = 2 ^ (c.R - 1))

/-- R106: the table is even about π/2. -/
def Obligations.TableEvenSymmetry : Prop :=
  ∀ (c : Config) (i : Nat), c.valid = true → TableFormula c → i < c.N →
    code c i = code c ((((c.N / 2 : Nat) : Int) - (i : Int)) % (c.N : Int)).toNat

/-- R107: an exact tie happens only at entries 0 and N/2, where `v_i = M / 2`; every other entry is the nearest integer to
its value. -/
def Obligations.TableTiesOnlyAtMidpoints : Prop :=
  ∀ (c : Config) (i : Nat), c.valid = true → TableFormula c → i < c.N →
    c.M % 2 = 1 ∧ ((∃ n : Int, exactValue c i + 1 / 2 = n) ↔ i = 0 ∨ i = c.N / 2) ∧
    ((i = 0 ∨ i = c.N / 2) → exactValue c i = (c.M : ℝ) / 2 ∧ code c i = 2 ^ (c.R - 1)) ∧
    ((i ≠ 0 ∧ i ≠ c.N / 2) → |exactValue c i - code c i| < 1 / 2)

/-- R108: channel A, a quarter period ahead, reads a cosine table. -/
def Obligations.ChannelAReadsCosineTable : Prop :=
  ∀ (c : Config) (i : Nat), c.valid = true → TableFormula c → i < c.N →
    ((code c ((i + c.Q) % c.N) : Nat) : Int) =
      ⌊(1 + Real.cos (2 * Real.pi * i / c.N)) * c.M / 2 + 1 / 2⌋

/-! ### The assembler -/

/-- R83 and R84, line by line. An item gives the one word of R83's table, and a `wr` is admitted exactly when its immediate
is in range (that `-0` is out of range is assumption log, entry 12). A group is admitted exactly when it is a `reset` alone
or an optional `rd`, an optional `strobe` and an optional `wr`, in this order and not all absent, with at most one of `rd`
and `wr` under the reading `oneAccess` (R83's text) and with both allowed under `readAndWrite` (the spec's vectors:
assumption log, entry 11; a group of one item is the model's choice, entry 21); it gives its items' words in order.
`strobe * n`, `setf X` (rounded half up in exact arithmetic, refused out of range) and `nop` are as R84 says. -/
def Obligations.AssemblerLines : Prop :=
  ∀ g : GroupReading,
  assembleLine g (.item .reset) = some [0x8000000000#40] ∧
  assembleLine g (.item .strobe) = some [0x4000000000#40] ∧
  (∀ r : RegName, assembleLine g (.item (.rd r)) = some [0x1#4 ++ 0#1 ++ indexOfReg r ++ 0#32]) ∧
  (∀ (r : RegName) (v : Nat), v ≤ 2 ^ 32 - 1 → ∃ d : Word, d.toNat = v ∧
    assembleLine g (.item (.wr r (.hex v))) = some [0x2#4 ++ 0#1 ++ indexOfReg r ++ d] ∧
    assembleLine g (.item (.wr r (.dec v))) = some [0x2#4 ++ 0#1 ++ indexOfReg r ++ d]) ∧
  (∀ (r : RegName) (v : Nat), 1 ≤ v → v ≤ 2 ^ 31 → ∃ d : Word, d.toInt = -(v : Int) ∧
    assembleLine g (.item (.wr r (.neg v))) = some [0x2#4 ++ 0#1 ++ indexOfReg r ++ d]) ∧
  (∀ (r : RegName) (v : Nat), 2 ^ 32 ≤ v →
    assembleLine g (.item (.wr r (.hex v))) = none ∧ assembleLine g (.item (.wr r (.dec v))) = none) ∧
  (∀ (r : RegName) (v : Nat), v = 0 ∨ 2 ^ 31 < v → assembleLine g (.item (.wr r (.neg v))) = none) ∧
  (∀ (is : List Item) (ws : List EventWord), assembleLine g (.group is) = some ws ↔
    (is = [.reset] ∨
      ∃ rd st wr : List Item, is = rd ++ st ++ wr ∧ is ≠ [] ∧
        (rd = [] ∨ ∃ r, rd = [.rd r]) ∧ (st = [] ∨ st = [.strobe]) ∧ (wr = [] ∨ ∃ r v, wr = [.wr r v]) ∧
        (g = .oneAccess → rd = [] ∨ wr = [])) ∧
    is.map (fun i => assembleLine g (.item i)) = ws.map (fun w => some [w])) ∧
  (∀ (r : RegName) (v : Imm), assembleLine g (.group []) = none ∧
    assembleLine g (.group [.strobe, .rd r]) = none ∧ assembleLine g (.group [.wr r v, .strobe]) = none ∧
    assembleLine g (.group [.wr r v, .rd r]) = none ∧ assembleLine g (.group [.strobe, .strobe]) = none ∧
    assembleLine g (.group [.reset, .strobe]) = none) ∧
  (∀ n : Nat, 1 ≤ n → assembleLine g (.strobes n) = some (List.replicate n 0x4000000000#40)) ∧
  assembleLine g (.strobes 0) = none ∧
  (∀ x : Decimal,
    setfRaw x = ⌊(if x.negative then -(x.digits : Rat) else x.digits) / 10 ^ x.scale * 65536 + 1 / 2⌋) ∧
  (∀ x : Decimal, -2 ^ 31 ≤ setfRaw x → setfRaw x ≤ 2 ^ 31 - 1 →
    ∃ d : Word, d.toInt = setfRaw x ∧ assembleLine g (.setf x) = some [encode (.wrFreq d)]) ∧
  (∀ x : Decimal, (setfRaw x < -2 ^ 31 ∨ 2 ^ 31 - 1 < setfRaw x) → assembleLine g (.setf x) = none) ∧
  assembleLine g .nop = some [] ∧
  assembleLine g (.setf ⟨false, 50, 0⟩) = some [0x2000320000#40] ∧
  assembleLine g (.setf ⟨false, 1223, 2⟩) = some [0x20000C3AE1#40]

/-! ### Builds and runs -/

/-- R8 and R100: the builds that run are exactly those that meet every constraint of R6 and whose ROM is a list of N codes
of R bits (that the ROM's shape is part of the check is the model's choice: assumption log, entry 7); both examples of R9
are such builds; and any other build is refused as BadConfig, whatever is pending (before any other refusal: the model's
choice, entry 6). -/
def Obligations.ValidBuildsExactly : Prop :=
  (∀ c : Config, c.valid = true ↔
    (c.N % 4 = 0 ∧ 4 ≤ c.N ∧ c.N ≤ 65532) ∧ (1 ≤ c.R ∧ c.R ≤ 16) ∧
    (1 ≤ c.freqMin ∧ 16 ≤ c.freqMin * c.N) ∧
    (c.freqMin ≤ c.freqMax ∧ c.freqMax ≤ 2 ^ 31 - 1 ∧ c.freqMax * c.N ≤ 10 ^ 6 * 2 ^ 16) ∧
    (c.freqMin ≤ c.freqReset ∧ c.freqReset ≤ c.freqMax) ∧
    (c.table.length = c.N ∧ ∀ x ∈ c.table, x < 2 ^ c.R)) ∧
  EX1.valid = true ∧ EX2.valid = true ∧
  (∀ s : State, s.cfg.valid = false → step s = .refused .badConfig) ∧
  (∀ (i : Instr) (s : State), s.cfg.valid = false → takeEvent i s = .refused .badConfig)

/-- R245: as many steps as there are pending words run those words, and the steps over the words of a sequence of events
run these events, each on the state the earlier ones left, with whatever is pending behind them left alone; a refusal ends
both runs alike. So the statements about runs of events are statements about steps (that the words stand in State is the
model's choice: assumption log, entry 3). -/
def Obligations.StepsRunPendingEvents : Prop :=
  (∀ (s : State) (es : List Instr) (rest : List EventWord), s.cfg.valid = true → s.inputs = es.map encode ++ rest →
    Host.Core.run Sys2Proof.core es.length s = runEvents es { s with inputs := rest }) ∧
  (∀ (s : State) (ws rest : List EventWord), s.cfg.valid = true → s.inputs = ws ++ rest →
    Host.Core.run Sys2Proof.core ws.length s = runWords ws { s with inputs := rest }) ∧
  (∀ (s : State) (es : List Instr), runWords (es.map encode) s = runEvents es s)
end

