-- ==== Sys2Proof/Laws/Assembler.lean ====
section
/-! SUPPORT. What the assembler answers for an item and for a group (spec/30_encoding.md R83). -/

namespace Sys2Proof.Machine

open Sys2Proof.Asm

@[simp] theorem assembleLine_item (g : GroupReading) (i : Item) :
    assembleLine g (.item i) = if i.ok then some [encode (itemEvent i)] else none := rfl

theorem assembleLine_group (g : GroupReading) (is : List Item) (ws : List EventWord) :
    assembleLine g (.group is) = some ws ↔
      groupOk g is = true ∧ (∀ i ∈ is, i.ok = true) ∧ is.map (fun i => encode (itemEvent i)) = ws := by
  simp [assembleLine, and_assoc]

/-- No reading admits a group out of the order of R72. -/
theorem assembleLine_misordered (g : GroupReading) {is : List Item} (h : groupOrderOk is = false) :
    assembleLine g (.group is) = none := by
  simp [assembleLine, groupOk, h]

/-- The reading of R83's text admits no more than that of the vectors. -/
theorem groupOk_readAndWrite {is : List Item} (h : groupOk .oneAccess is = true) : groupOk .readAndWrite is = true := by
  simp_all [groupOk]

end Sys2Proof.Machine
end

