-- ==== Sys2Proof/Laws/Config.lean ====
section
/-! SUPPORT. What a valid configuration gives (spec/00_scope.md R8), and the shape of its ROM. -/

namespace Sys2Proof

/-- The constraints of R6 and R8, as one conjunction. -/
theorem Config.paramsOk_iff (c : Config) : c.paramsOk = true ↔
    c.N % 4 = 0 ∧ 4 ≤ c.N ∧ c.N ≤ 65532 ∧ 1 ≤ c.R ∧ c.R ≤ 16 ∧ 1 ≤ c.freqMin ∧ 16 ≤ c.freqMin * c.N ∧
    c.freqMin ≤ c.freqMax ∧ c.freqMax ≤ 2147483647 ∧ c.freqMax * c.N ≤ K ∧
    c.freqMin ≤ c.freqReset ∧ c.freqReset ≤ c.freqMax := by
  simp only [Config.paramsOk, Bool.and_eq_true, beq_iff_eq, decide_eq_true_eq, and_assoc]

theorem Config.tableOk_iff (c : Config) : c.tableOk = true ↔
    c.table.length = c.N ∧ ∀ x ∈ c.table, x < 2 ^ c.R := by
  simp [Config.tableOk, List.all_eq_true]

theorem Config.valid_iff (c : Config) : c.valid = true ↔ c.paramsOk = true ∧ c.tableOk = true := by
  simp [Config.valid]

/-- Everything R8 says of a valid configuration. -/
theorem Config.params_of_valid {c : Config} (h : c.valid = true) :
    c.N % 4 = 0 ∧ 4 ≤ c.N ∧ c.N ≤ 65532 ∧ 1 ≤ c.R ∧ c.R ≤ 16 ∧ 1 ≤ c.freqMin ∧ 16 ≤ c.freqMin * c.N ∧
    c.freqMin ≤ c.freqMax ∧ c.freqMax ≤ 2147483647 ∧ c.freqMax * c.N ≤ K ∧
    c.freqMin ≤ c.freqReset ∧ c.freqReset ≤ c.freqMax :=
  c.paramsOk_iff.mp (c.valid_iff.mp h).1

theorem Config.N_pos {c : Config} (h : c.valid = true) : 0 < c.N := by
  have := c.params_of_valid h
  omega

/-- `Q` is an exact quarter of the table. -/
theorem Config.four_mul_Q {c : Config} (h : c.valid = true) : 4 * c.Q = c.N := by
  have := c.params_of_valid h
  simp only [Config.Q]
  omega

theorem Config.Q_pos {c : Config} (h : c.valid = true) : 0 < c.Q := by
  have := c.params_of_valid h
  simp only [Config.Q]
  omega

namespace Machine

/-- The two mirrored indices stay inside the table (R109). -/
theorem oppositeIndex_lt {c : Config} (h : c.valid = true) (i : Nat) : oppositeIndex c i < c.N :=
  Nat.mod_lt _ (c.N_pos h)

theorem reflectedIndex_lt {c : Config} (h : c.valid = true) (i : Nat) : reflectedIndex c i < c.N := by
  have hN := c.N_pos h
  have := Int.emod_lt_of_pos (((c.N / 2 : Nat) : Int) - i) (b := c.N) (by omega)
  simp only [reflectedIndex]
  omega

@[simp] theorem code_mod (c : Config) (i : Nat) : code c (i % c.N) = code c i := by
  simp [code]

/-- Every code the ROM gives is an R-bit code (R100). -/
theorem code_lt {c : Config} (h : c.valid = true) (i : Nat) : code c i < 2 ^ c.R := by
  have ⟨hlen, hall⟩ := c.tableOk_iff.mp (c.valid_iff.mp h).2
  have hi : i % c.N < c.table.length := by
    rw [hlen]
    exact Nat.mod_lt _ (c.N_pos h)
  rw [code, List.getD_eq_getElem _ _ hi]
  exact hall _ (List.getElem_mem hi)

/-- Every code fits the 16-bit half of SAMPLE (R36). -/
theorem code_lt_half {c : Config} (h : c.valid = true) (i : Nat) : code c i < 65536 :=
  lt_of_lt_of_le (code_lt h i) (Nat.pow_le_pow_right (n := 2) (by decide) (c.params_of_valid h).2.2.2.2.1)

end Machine

end Sys2Proof
end

