-- ==== Sys2Proof/Laws/Decode.lean ====
section
/-! SUPPORT. The fields of a word made by `eventWord`, a word from its fields, and the two ways between registers and
their indices. -/

namespace Sys2Proof

/-- The number an event word is, by its fields (R76). -/
theorem eventWord_toNat (k : BitVec 4) (r : BitVec 3) (d : Word) :
    (eventWord k r d).toNat = k.toNat * 68719476736 + r.toNat * 4294967296 + d.toNat := by
  have := k.isLt
  have := r.isLt
  have := d.isLt
  simp only [eventWord, BitVec.toNat_append]
  rw [← Nat.shiftLeft_add_eq_or_of_lt (by omega), ← Nat.shiftLeft_add_eq_or_of_lt (by omega),
    ← Nat.shiftLeft_add_eq_or_of_lt (by simp)]
  simp only [Nat.shiftLeft_eq, BitVec.toNat_ofNat]
  omega

@[simp] theorem eventKind_eventWord (k : BitVec 4) (r : BitVec 3) (d : Word) : eventKind (eventWord k r d) = k := by
  apply BitVec.eq_of_toNat_eq
  have := k.isLt
  have := r.isLt
  have := d.isLt
  simp only [eventKind, BitVec.extractLsb'_toNat, eventWord_toNat, Nat.shiftRight_eq_div_pow]
  omega

@[simp] theorem eventReserved_eventWord (k : BitVec 4) (r : BitVec 3) (d : Word) :
    eventReserved (eventWord k r d) = false := by
  have := k.isLt
  have := r.isLt
  have := d.isLt
  simp only [eventReserved, BitVec.getLsbD, eventWord_toNat, Nat.testBit_eq_decide_div_mod_eq, decide_eq_false_iff_not]
  omega

@[simp] theorem eventReg_eventWord (k : BitVec 4) (r : BitVec 3) (d : Word) : eventReg (eventWord k r d) = r := by
  apply BitVec.eq_of_toNat_eq
  have := k.isLt
  have := r.isLt
  have := d.isLt
  simp only [eventReg, BitVec.extractLsb'_toNat, eventWord_toNat, Nat.shiftRight_eq_div_pow]
  omega

@[simp] theorem eventData_eventWord (k : BitVec 4) (r : BitVec 3) (d : Word) : eventData (eventWord k r d) = d := by
  apply BitVec.eq_of_toNat_eq
  have := k.isLt
  have := r.isLt
  have := d.isLt
  simp only [eventData, BitVec.extractLsb'_toNat, eventWord_toNat, Nat.shiftRight_eq_div_pow]
  omega

/-- A word whose reserved bit is 0 is made of its own fields. -/
theorem eventWord_fields {w : EventWord} (h : eventReserved w = false) :
    eventWord (eventKind w) (eventReg w) (eventData w) = w := by
  apply BitVec.eq_of_toNat_eq
  have := w.isLt
  simp only [eventReserved, BitVec.getLsbD, Nat.testBit_eq_decide_div_mod_eq, decide_eq_false_iff_not] at h
  simp only [eventWord_toNat, eventKind, eventReg, eventData, BitVec.extractLsb'_toNat, Nat.shiftRight_eq_div_pow]
  omega

@[simp] theorem regOfIndex_indexOfReg (r : RegName) : regOfIndex (indexOfReg r) = r := by
  cases r <;> rfl

@[simp] theorem indexOfReg_regOfIndex (n : BitVec 3) : indexOfReg (regOfIndex n) = n := by
  revert n
  decide

@[simp] theorem encode_readEvent (r : RegName) : encode (readEvent r) = encodeRead r := by
  cases r <;> rfl

@[simp] theorem encode_writeEvent (r : RegName) (d : Word) : encode (writeEvent r d) = encodeWrite r d := by
  cases r <;> rfl

end Sys2Proof
end

