-- ==== Sys2Proof/Laws/Operands.lean ====
section
/-! SUPPORT. The operand readings: two's complement, words from integers, and the clamp. -/

namespace Sys2Proof.Machine

/-- `sint32` is the two's-complement reading of the word (R11). -/
theorem sint32_eq_toInt (d : Word) : sint32 d = d.toInt := by
  have hd := d.isLt
  rw [sint32, BitVec.toInt_eq_toNat_cond]
  split <;> split <;> omega

/-- A value that fits 32 unsigned bits is stored whole. -/
theorem uint32_toNat {v : Int} (h0 : 0 ≤ v) (h1 : v < 4294967296) : ((uint32 v).toNat : Int) = v := by
  simp only [uint32, BitVec.toNat_ofInt]
  omega

/-- The clamped frequency lies in `[FREQ_MIN, FREQ_MAX]` (R152). -/
theorem clampFreq_mem {c : Config} (h : c.valid = true) (d : Word) :
    c.freqMin ≤ clampFreq c d ∧ clampFreq c d ≤ c.freqMax := by
  have := c.params_of_valid h
  simp only [clampFreq]
  omega

/-- The clamped frequency is stored whole. -/
theorem clampFreq_toNat {c : Config} (h : c.valid = true) (d : Word) :
    ((uint32 (clampFreq c d)).toNat : Int) = clampFreq c d := by
  have := c.params_of_valid h
  have := clampFreq_mem h d
  exact uint32_toNat (by omega) (by omega)

/-- The change test on words is the one on integers (R153, R156). -/
theorem changesFreq_iff {c : Config} (h : c.valid = true) (d : Word) (r : Regs) :
    changesFreq c d r = true ↔ clampFreq c d ≠ (r.freq.toNat : Int) := by
  simp only [changesFreq, bne_iff_ne, ne_eq, not_iff_not]
  constructor
  · intro e
    rw [← e, clampFreq_toNat h]
  · intro e
    apply BitVec.eq_of_toNat_eq
    have := clampFreq_toNat h d
    omega

/-- An index step stays inside the table (R121). -/
theorem nextIndex_toNat {c : Config} (h : c.valid = true) (i : Half) :
    (nextIndex c i).toNat = (i.toNat + 1) % c.N := by
  have := c.params_of_valid h
  have := Nat.mod_lt (i.toNat + 1) (c.N_pos h)
  simp only [nextIndex, BitVec.toNat_ofNat]
  omega

/-- The divisor of the period formula on the frequencies of a build (R8, R151). -/
theorem freq_mul_N {c : Config} (h : c.valid = true) {f : Int} (h1 : c.freqMin ≤ f) (h2 : f ≤ c.freqMax) :
    16 ≤ f * c.N ∧ f * c.N ≤ K := by
  have := c.params_of_valid h
  have hN : (0 : Int) ≤ c.N := by omega
  exact ⟨by nlinarith, by nlinarith⟩

/-- A period is at least 1 and fits the field (R151). -/
theorem periodOf_bounds {c : Config} (h : c.valid = true) {f : Int} (h1 : c.freqMin ≤ f) (h2 : f ≤ c.freqMax) :
    1 ≤ periodOf c f ∧ periodOf c f ≤ 4096000000 := by
  obtain ⟨ha, hb⟩ := freq_mul_N h h1 h2
  constructor
  · exact (Int.le_ediv_iff_mul_le (by omega)).mpr (by omega)
  · have : periodOf c f < 4096000001 := (Int.ediv_lt_iff_lt_mul (by omega)).mpr (by simp only [K]; omega)
    omega

/-- A period is stored whole (R27). -/
theorem periodOf_toNat {c : Config} (h : c.valid = true) {f : Int} (h1 : c.freqMin ≤ f) (h2 : f ≤ c.freqMax) :
    ((uint32 (periodOf c f)).toNat : Int) = periodOf c f := by
  have := periodOf_bounds h h1 h2
  exact uint32_toNat (by omega) (by omega)

/-- The reset values are stored whole (R230). -/
theorem resetRegs_toNat {c : Config} (h : c.valid = true) :
    (resetRegs c).idxA.toNat = c.Q ∧ ((resetRegs c).freq.toNat : Int) = c.freqReset ∧
    ((resetRegs c).period.toNat : Int) = periodOf c c.freqReset := by
  have := c.params_of_valid h
  have := c.four_mul_Q h
  refine ⟨?_, uint32_toNat (by omega) (by omega), periodOf_toNat h (by omega) (by omega)⟩
  simp only [resetRegs, BitVec.toNat_ofNat]
  omega

end Sys2Proof.Machine
end

