-- ==== Sys2Proof/Laws/PerInstr.lean ====
section
/-! SUPPORT. Per-instruction laws. The family OpcodeRow: the word of an event selects the row of the opcode map that
bears the event's mnemonic (spec/30_encoding.md R82). -/

namespace Sys2Proof.Laws.OpcodeRow

/-- The event's word selects the row of its mnemonic. -/
def Statement (i : Instr) : Prop :=
  ∃ r ∈ opcodeMap, r.mnemonic = mnemonicOf i ∧ r.selects (encode i) = true

/-- The word of a write, under the mask of the write rows, is the word of the write of 0. -/
theorem encodeWrite_masked (r : RegName) (d : Word) :
    encodeWrite r d &&& 0xFF00000000#40 = encodeWrite r 0#32 := by
  apply BitVec.eq_of_getLsbD_eq
  intro i hi
  have hmask : (0xFF00000000#40).getLsbD i = decide (32 ≤ i) := by
    revert i
    decide
  simp only [encodeWrite, eventWord, BitVec.getLsbD_and, hmask, BitVec.getLsbD_append]
  by_cases h : i < 32
  · simp [h]
  · simp [h, Nat.le_of_not_lt h]

/-- A row of the map with the write mask is selected by the words of its register's writes. -/
theorem write_row {r : RegName} {i : Instr} {d : Word} (row : OpcodeRow) (hi : encode i = encodeWrite r d)
    (hrow : row ∈ opcodeMap) (hmn : row.mnemonic = mnemonicOf i) (hmask : row.mask = 0xFF00000000#40)
    (hmatch : row.matchBits = encodeWrite r 0#32) : Statement i := by
  refine ⟨row, hrow, hmn, ?_⟩
  rw [OpcodeRow.selects, hi, hmask, hmatch, encodeWrite_masked]
  exact beq_self_eq_true _

theorem rdFreq : Statement .rdFreq := ⟨opcodeMap[0], by decide, by decide, by decide⟩
theorem rdPeriod : Statement .rdPeriod := ⟨opcodeMap[1], by decide, by decide, by decide⟩
theorem rdPhase : Statement .rdPhase := ⟨opcodeMap[2], by decide, by decide, by decide⟩
theorem rdSample : Statement .rdSample := ⟨opcodeMap[3], by decide, by decide, by decide⟩
theorem rdRetargets : Statement .rdRetargets := ⟨opcodeMap[4], by decide, by decide, by decide⟩
theorem rdConfig : Statement .rdConfig := ⟨opcodeMap[5], by decide, by decide, by decide⟩
theorem rdFmin : Statement .rdFmin := ⟨opcodeMap[6], by decide, by decide, by decide⟩
theorem rdFmax : Statement .rdFmax := ⟨opcodeMap[7], by decide, by decide, by decide⟩
theorem wrFreq (d : Word) : Statement (.wrFreq d) := write_row opcodeMap[8] rfl (by decide) rfl rfl (by decide)
theorem wrPeriod (d : Word) : Statement (.wrPeriod d) := write_row opcodeMap[9] rfl (by decide) rfl rfl (by decide)
theorem wrPhase (d : Word) : Statement (.wrPhase d) := write_row opcodeMap[10] rfl (by decide) rfl rfl (by decide)
theorem wrSample (d : Word) : Statement (.wrSample d) := write_row opcodeMap[11] rfl (by decide) rfl rfl (by decide)
theorem wrRetargets (d : Word) : Statement (.wrRetargets d) :=
  write_row opcodeMap[12] rfl (by decide) rfl rfl (by decide)
theorem wrConfig (d : Word) : Statement (.wrConfig d) := write_row opcodeMap[13] rfl (by decide) rfl rfl (by decide)
theorem wrFmin (d : Word) : Statement (.wrFmin d) := write_row opcodeMap[14] rfl (by decide) rfl rfl (by decide)
theorem wrFmax (d : Word) : Statement (.wrFmax d) := write_row opcodeMap[15] rfl (by decide) rfl rfl (by decide)
theorem strobe : Statement .strobe := ⟨opcodeMap[16], by decide, by decide, by decide⟩
theorem reset : Statement .reset := ⟨opcodeMap[17], by decide, by decide, by decide⟩

end Sys2Proof.Laws.OpcodeRow
end

