-- ==== Sys2Proof/Laws/SineTable.lean ====
section
/-! SUPPORT. The example build EX2 meets the named property of its ROM: every entry is the one of spec/40_sine_table.md
R101. -/

namespace Sys2Proof.Machine

/-- A code is the rounded value when the value lies in the half-open unit interval around it. -/
theorem floor_half_eq {x : ℝ} {n : Int} (h1 : (n : ℝ) - 1 / 2 ≤ x) (h2 : x < n + 1 / 2) : n = ⌊x + 1 / 2⌋ :=
  (Int.floor_eq_iff.mpr ⟨by linarith, by linarith⟩).symm

/-- The eight sines of EX2's table. -/
theorem ex2_sines :
    Real.sin (2 * Real.pi * (0 : ℕ) / 8) = 0 ∧ Real.sin (2 * Real.pi * (1 : ℕ) / 8) = √2 / 2 ∧
    Real.sin (2 * Real.pi * (2 : ℕ) / 8) = 1 ∧ Real.sin (2 * Real.pi * (3 : ℕ) / 8) = √2 / 2 ∧
    Real.sin (2 * Real.pi * (4 : ℕ) / 8) = 0 ∧ Real.sin (2 * Real.pi * (5 : ℕ) / 8) = -(√2 / 2) ∧
    Real.sin (2 * Real.pi * (6 : ℕ) / 8) = -1 ∧ Real.sin (2 * Real.pi * (7 : ℕ) / 8) = -(√2 / 2) := by
  refine ⟨by simp, ?_, ?_, ?_, ?_, ?_, ?_, ?_⟩
  · rw [show 2 * Real.pi * (1 : ℕ) / 8 = Real.pi / 4 by push_cast; ring, Real.sin_pi_div_four]
  · rw [show 2 * Real.pi * (2 : ℕ) / 8 = Real.pi / 2 by push_cast; ring, Real.sin_pi_div_two]
  · rw [show 2 * Real.pi * (3 : ℕ) / 8 = Real.pi - Real.pi / 4 by push_cast; ring, Real.sin_pi_sub,
      Real.sin_pi_div_four]
  · rw [show 2 * Real.pi * (4 : ℕ) / 8 = Real.pi by push_cast; ring, Real.sin_pi]
  · rw [show 2 * Real.pi * (5 : ℕ) / 8 = Real.pi / 4 + Real.pi by push_cast; ring, Real.sin_add_pi,
      Real.sin_pi_div_four]
  · rw [show 2 * Real.pi * (6 : ℕ) / 8 = Real.pi / 2 + Real.pi by push_cast; ring, Real.sin_add_pi,
      Real.sin_pi_div_two]
  · rw [show 2 * Real.pi * (7 : ℕ) / 8 = 2 * Real.pi - Real.pi / 4 by push_cast; ring, Real.sin_two_pi_sub,
      Real.sin_pi_div_four]

/-- EX2's table is the sine table of `N = 8`, `R = 4`. -/
theorem ex2_tableFormula : TableFormula EX2 := by
  have h1 : (1.4 : ℝ) < √2 := by
    rw [Real.lt_sqrt (by norm_num)]
    norm_num
  have h2 : √2 < (1.42 : ℝ) := by
    rw [Real.sqrt_lt' (by norm_num)]
    norm_num
  obtain ⟨s0, s1, s2, s3, s4, s5, s6, s7⟩ := ex2_sines
  have hN : ((EX2.N : ℕ) : ℝ) = 8 := by norm_num [EX2]
  have hM : ((EX2.M : ℕ) : ℝ) = 15 := by norm_num [EX2, Config.M]
  intro i hi
  have hi : i < 8 := hi
  rw [exactValue, hN, hM]
  apply floor_half_eq <;> interval_cases i <;>
    simp only [s0, s1, s2, s3, s4, s5, s6, s7, code, EX2, List.getD] <;> norm_num <;> linarith

end Sys2Proof.Machine
end

