-- ==== Sys2Proof/Laws/SineTableEX1.lean ====
section
/-! SUPPORT. The example build EX1 meets the named property of its ROM: all 600 entries are those of
spec/40_sine_table.md R101. The sines of the first eighth of the period are followed by the angle-addition formulas in
integers scaled by 10^12, with a bound on the error; every other angle is one of those up to sign and reflection. -/

namespace Sys2Proof.Machine.SineEX1

/-- The angle of one table entry. -/
noncomputable def angle : ℝ := Real.pi / 300

/-- The scaled sine and cosine of one entry's angle. -/
def s1 : Int := 10471784116

def c1 : Int := 999945168863

/-- Scaled sine, scaled cosine and error bound of entry `i`, by the angle-addition formulas. -/
def approx : Nat → Int × Int × Int
  | 0 => (0, 1000000000000, 0)
  | n + 1 =>
    let p := approx n
    ((p.1 * c1 + p.2.1 * s1) / 1000000000000, (p.2.1 * c1 - p.1 * s1) / 1000000000000, p.2.2 + p.2.2 / 50 + 2000)

theorem angle_bounds : (0.010471975511 : ℝ) < angle ∧ angle < 0.010471975512 := by
  have h1 := Real.pi_gt_d20
  have h2 := Real.pi_lt_d20
  constructor <;> rw [angle] <;> linarith

theorem angle_fourth : angle ^ 4 * (5 / 96) < 0.00000000063 := by
  obtain ⟨h1, h2⟩ := angle_bounds
  have h3 : angle ^ 2 < 0.0001096623 := by nlinarith
  have h4 : angle ^ 4 < 0.000000012025822 := by nlinarith [sq_nonneg angle, show angle ^ 4 = angle ^ 2 * angle ^ 2 by ring]
  linarith

theorem sin_angle : |Real.sin angle * 1000000000000 - s1| ≤ 700 := by
  obtain ⟨h1, h2⟩ := angle_bounds
  have h := abs_le.mp (Real.sin_bound (x := angle) (by rw [abs_le]; constructor <;> linarith))
  have h4 := angle_fourth
  rw [abs_of_pos (by linarith)] at h
  have h5 : (0.00000114838 : ℝ) < angle ^ 3 := by
    have : (0.000109662271 : ℝ) < angle ^ 2 := by nlinarith
    nlinarith
  have h6 : angle ^ 3 < 0.0000011483807 := by
    have : angle ^ 2 < 0.00010966227113 := by nlinarith
    nlinarith
  rw [abs_le, s1]
  push_cast
  constructor <;> nlinarith

theorem cos_angle : |Real.cos angle * 1000000000000 - c1| ≤ 700 := by
  obtain ⟨h1, h2⟩ := angle_bounds
  have h := abs_le.mp (Real.cos_bound (x := angle) (by rw [abs_le]; constructor <;> linarith))
  have h4 := angle_fourth
  rw [abs_of_pos (by linarith)] at h
  have h5 : (0.000109662271 : ℝ) < angle ^ 2 := by nlinarith
  have h6 : angle ^ 2 < 0.00010966227113 := by nlinarith
  rw [abs_le, c1]
  push_cast
  constructor <;> nlinarith

/-- A floor division by the scale loses less than one unit. -/
theorem scaled_floor (x : Int) :
    ((x / 1000000000000 : Int) : ℝ) * 1000000000000 ≤ x ∧
    (x : ℝ) < (((x / 1000000000000 : Int) : ℝ) + 1) * 1000000000000 := by
  constructor
  · have h : x / 1000000000000 * 1000000000000 ≤ x := by omega
    exact_mod_cast h
  · have h : x < (x / 1000000000000 + 1) * 1000000000000 := by omega
    exact_mod_cast h

/-- One half of an addition formula: a product of two values known up to errors. -/
theorem product_error {s r : ℝ} {S R E : ℝ} (hs : |s| ≤ 1) (hS : |s * 1000000000000 - S| ≤ E)
    (hr : |r * 1000000000000 - R| ≤ 700) (hR : 0 ≤ R) :
    |s * r * 1000000000000 * 1000000000000 - S * R| ≤ E * R + 700 * 1000000000000 := by
  have h1 : s * r * 1000000000000 * 1000000000000 - S * R =
      (s * 1000000000000 - S) * R + s * 1000000000000 * (r * 1000000000000 - R) := by ring
  have h2 : |(s * 1000000000000 - S) * R| ≤ E * R := by
    rw [abs_mul, abs_of_nonneg hR]
    exact mul_le_mul_of_nonneg_right hS hR
  have h3 : |s * 1000000000000 * (r * 1000000000000 - R)| ≤ 1000000000000 * 700 := by
    rw [abs_mul]
    apply mul_le_mul _ hr (abs_nonneg _) (by norm_num)
    rw [abs_mul, abs_of_pos (by norm_num : (0 : ℝ) < 1000000000000)]
    linarith
  rw [h1]
  have := abs_add_le ((s * 1000000000000 - S) * R) (s * 1000000000000 * (r * 1000000000000 - R))
  linarith

/-- The scaled values follow the true ones within the bound. -/
theorem approx_spec (i : Nat) : 0 ≤ (approx i).2.2 ∧
    |Real.sin (i * angle) * 1000000000000 - (approx i).1| ≤ (approx i).2.2 ∧
    |Real.cos (i * angle) * 1000000000000 - (approx i).2.1| ≤ (approx i).2.2 := by
  induction i with
  | zero => simp [approx]
  | succ n ih =>
    obtain ⟨hE, hs, hc⟩ := ih
    generalize hp : approx n = p at hE hs hc
    have hs1 : (0 : ℝ) ≤ ((s1 : Int) : ℝ) := by norm_num [s1]
    have hc1 : (0 : ℝ) ≤ ((c1 : Int) : ℝ) := by norm_num [c1]
    have e1 := abs_le.mp (product_error (Real.abs_sin_le_one _) hs cos_angle hc1)
    have e2 := abs_le.mp (product_error (Real.abs_cos_le_one _) hc sin_angle hs1)
    have e3 := abs_le.mp (product_error (Real.abs_cos_le_one _) hc cos_angle hc1)
    have e4 := abs_le.mp (product_error (Real.abs_sin_le_one _) hs sin_angle hs1)
    have f1 := scaled_floor (p.1 * c1 + p.2.1 * s1)
    have f2 := scaled_floor (p.2.1 * c1 - p.1 * s1)
    have hE' : (0 : ℝ) ≤ ((p.2.2 : Int) : ℝ) := by exact_mod_cast hE
    have g : ((p.2.2 : Int) : ℝ) * 1.0105 + 1401 ≤ ((p.2.2 + p.2.2 / 50 + 2000 : Int) : ℝ) := by
      have h : p.2.2 ≤ p.2.2 / 50 * 50 + 49 := by omega
      have h' : ((p.2.2 : Int) : ℝ) ≤ ((p.2.2 / 50 : Int) : ℝ) * 50 + 49 := by exact_mod_cast h
      push_cast
      linarith
    have hangle : ((n + 1 : Nat) : ℝ) * angle = n * angle + angle := by
      push_cast
      ring
    have hcv : ((c1 : Int) : ℝ) = 999945168863 := by norm_num [c1]
    have hsv : ((s1 : Int) : ℝ) = 10471784116 := by norm_num [s1]
    rw [hangle, Real.sin_add, Real.cos_add]
    simp only [approx, hp]
    push_cast at f1 f2 g ⊢
    rw [hcv] at e1 e3 f1 f2
    rw [hsv] at e2 e4 f1 f2
    refine ⟨by omega, ?_, ?_⟩
    · rw [abs_le]
      constructor <;> linarith
    · rw [abs_le]
      constructor <;> linarith

/-- The scaled sine of entry `i` of the period: one of the first eighth's values, up to sign and reflection. -/
def wave (i : Nat) : Int :=
  let r := i % 150
  let s := if r ≤ 75 then (approx r).1 else (approx (150 - r)).2.1
  let c := if r ≤ 75 then (approx r).2.1 else (approx (150 - r)).1
  if i / 150 % 4 = 0 then s else if i / 150 % 4 = 1 then c else if i / 150 % 4 = 2 then -s else -c

theorem approx_error_mono (m n : Nat) : (approx m).2.2 ≤ (approx (m + n)).2.2 := by
  induction n with
  | zero => exact le_refl _
  | succ k ih =>
    have h := (approx_spec (m + k)).1
    have : (approx (m + (k + 1))).2.2 = (approx (m + k)).2.2 + (approx (m + k)).2.2 / 50 + 2000 := rfl
    omega

theorem approx_error {m : Nat} (h : m ≤ 75) : (approx m).2.2 ≤ 400000 := by
  have h1 := approx_error_mono m (75 - m)
  rw [Nat.add_sub_cancel' h] at h1
  have h2 : (approx 75).2.2 ≤ 400000 := by decide +kernel
  omega

/-- The sine and cosine within the first quarter. -/
theorem quarter_spec {r : Nat} (h : r < 150) :
    |Real.sin (r * angle) * 1000000000000 - ((if r ≤ 75 then (approx r).1 else (approx (150 - r)).2.1 : Int) : ℝ)| ≤
      400000 ∧
    |Real.cos (r * angle) * 1000000000000 - ((if r ≤ 75 then (approx r).2.1 else (approx (150 - r)).1 : Int) : ℝ)| ≤
      400000 := by
  by_cases h75 : r ≤ 75
  · simp only [h75, if_true]
    have he : (((approx r).2.2 : Int) : ℝ) ≤ 400000 := by exact_mod_cast approx_error h75
    exact ⟨(approx_spec r).2.1.trans he, (approx_spec r).2.2.trans he⟩
  · simp only [h75, if_false]
    have he : (((approx (150 - r)).2.2 : Int) : ℝ) ≤ 400000 := by
      exact_mod_cast approx_error (m := 150 - r) (by omega)
    have hr : (r : ℝ) * angle = Real.pi / 2 - ((150 - r : Nat) : ℝ) * angle := by
      rw [Nat.cast_sub (by omega), angle]
      push_cast
      ring
    rw [hr, Real.sin_pi_div_two_sub, Real.cos_pi_div_two_sub]
    exact ⟨(approx_spec (150 - r)).2.2.trans he, (approx_spec (150 - r)).2.1.trans he⟩

/-- The scaled sine of every entry. -/
theorem wave_spec {i : Nat} (h : i < 600) :
    |Real.sin (2 * Real.pi * i / 600) * 1000000000000 - (wave i : Int)| ≤ 400000 := by
  obtain ⟨hs, hc⟩ := quarter_spec (Nat.mod_lt i (by decide : 0 < 150))
  have hi : (i : ℝ) = 150 * ((i / 150 : Nat) : ℝ) + ((i % 150 : Nat) : ℝ) := by
    exact_mod_cast (Nat.div_add_mod i 150).symm
  have hang : 2 * Real.pi * i / 600 = ((i % 150 : Nat) : ℝ) * angle + ((i / 150 : Nat) : ℝ) * (Real.pi / 2) := by
    rw [hi, angle]
    ring
  have hq : i / 150 < 4 := by omega
  rw [hang]
  simp only [wave]
  generalize i % 150 = r at hs hc ⊢
  generalize i / 150 = q at hq ⊢
  interval_cases q
  · simpa using hs
  · rw [Nat.cast_one, one_mul, Real.sin_add_pi_div_two]
    simpa using hc
  · rw [show ((2 : ℕ) : ℝ) * (Real.pi / 2) = Real.pi by push_cast; ring, Real.sin_add_pi, ← abs_neg]
    simpa [add_comm, sub_eq_add_neg] using hs
  · rw [show ((3 : ℕ) : ℝ) * (Real.pi / 2) = Real.pi / 2 + Real.pi by push_cast; ring, ← add_assoc, Real.sin_add_pi,
      Real.sin_add_pi_div_two, ← abs_neg]
    simpa [add_comm, sub_eq_add_neg] using hc

/-- The listed code of an entry is the only one its scaled sine allows; the two ties are left out. -/
def entryOk (i : Nat) : Bool :=
  i % 300 == 0 ||
  (decide ((2 * (ex1Table.getD i 0 : Int) - 1) * 1000000000000 ≤ (1000000000000 + wave i - 400000) * 4095) &&
   decide ((1000000000000 + wave i + 400000) * 4095 < (2 * (ex1Table.getD i 0 : Int) + 1) * 1000000000000))

theorem entries_ok : (List.range 600).all entryOk = true := by decide +kernel

/-- EX1's table is the sine table of `N = 600`, `R = 12`. -/
theorem ex1_tableFormula : TableFormula EX1 := by
  intro i hi
  have hi : i < 600 := hi
  have hN : ((EX1.N : ℕ) : ℝ) = 600 := by norm_num [EX1]
  have hM : ((EX1.M : ℕ) : ℝ) = 4095 := by norm_num [EX1, Config.M]
  have hcode : code EX1 i = ex1Table.getD i 0 := by
    rw [code, show EX1.N = 600 from rfl, Nat.mod_eq_of_lt hi]
    rfl
  have hok := List.all_eq_true.mp entries_ok i (List.mem_range.mpr hi)
  rw [exactValue, hN, hM, hcode]
  by_cases ht : i % 300 = 0
  · have h0 : i = 0 ∨ i = 300 := by omega
    rcases h0 with rfl | rfl
    · rw [show ex1Table.getD 0 0 = 2048 from rfl]
      norm_num
    · rw [show ex1Table.getD 300 0 = 2048 by decide +kernel,
        show 2 * Real.pi * ((300 : ℕ) : ℝ) / 600 = Real.pi by push_cast; ring, Real.sin_pi]
      norm_num
  · have hb : (i % 300 == 0) = false := beq_eq_false_iff_ne.mpr ht
    rw [entryOk, hb, Bool.false_or, Bool.and_eq_true, decide_eq_true_eq, decide_eq_true_eq] at hok
    obtain ⟨h1, h2⟩ := hok
    have w := abs_le.mp (wave_spec hi)
    generalize ex1Table.getD i 0 = n at *
    have h1' : (2 * (n : ℝ) - 1) * 1000000000000 ≤ (1000000000000 + (wave i : Int) - 400000) * 4095 := by exact_mod_cast h1
    have h2' : (1000000000000 + (wave i : Int) + 400000) * 4095 < (2 * (n : ℝ) + 1) * 1000000000000 := by exact_mod_cast h2
    apply floor_half_eq <;> push_cast <;> linarith

end Sys2Proof.Machine.SineEX1
end

