-- ==== Sys2Proof/Laws/State.lean ====
section
/-! SUPPORT. One lemma per field per update of State and Regs, each true by rfl, so that no later proof unfolds a record
update. -/

namespace Sys2Proof.Machine

/-! ### emit -/

@[simp] theorem emit_cfg (o : Obs) (s : State) : (emit o s).cfg = s.cfg := rfl
@[simp] theorem emit_afterReset (o : Obs) (s : State) : (emit o s).afterReset = s.afterReset := rfl
@[simp] theorem emit_regs (o : Obs) (s : State) : (emit o s).regs = s.regs := rfl
@[simp] theorem emit_inputs (o : Obs) (s : State) : (emit o s).inputs = s.inputs := rfl
@[simp] theorem emit_trace (o : Obs) (s : State) : (emit o s).trace = s.trace ++ [o] := rfl

/-! ### readReg -/

@[simp] theorem readReg_cfg (r : RegName) (s : State) : (readReg r s).cfg = s.cfg := rfl
@[simp] theorem readReg_afterReset (r : RegName) (s : State) : (readReg r s).afterReset = s.afterReset := rfl
@[simp] theorem readReg_regs (r : RegName) (s : State) : (readReg r s).regs = s.regs := rfl
@[simp] theorem readReg_inputs (r : RegName) (s : State) : (readReg r s).inputs = s.inputs := rfl
@[simp] theorem readReg_trace (r : RegName) (s : State) : (readReg r s).trace = s.trace ++ [.read r (regValue r s)] := rfl

/-! ### ignoreWrite -/

@[simp] theorem ignoreWrite_eq (r : RegName) (d : Word) (s : State) : ignoreWrite r d s = s := rfl

/-! ### clearCount -/

@[simp] theorem clearCount_cfg (s : State) : (clearCount s).cfg = s.cfg := rfl
@[simp] theorem clearCount_afterReset (s : State) : (clearCount s).afterReset = s.afterReset := rfl
@[simp] theorem clearCount_regs (s : State) : (clearCount s).regs = { s.regs with tcnt := 0#32 } := rfl
@[simp] theorem clearCount_inputs (s : State) : (clearCount s).inputs = s.inputs := rfl
@[simp] theorem clearCount_trace (s : State) : (clearCount s).trace = s.trace := rfl

/-! ### countStrobe -/

@[simp] theorem countStrobe_cfg (s : State) : (countStrobe s).cfg = s.cfg := rfl
@[simp] theorem countStrobe_afterReset (s : State) : (countStrobe s).afterReset = s.afterReset := rfl
@[simp] theorem countStrobe_regs (s : State) : (countStrobe s).regs = { s.regs with tcnt := BitVec.ofNat 32 (s.regs.tcnt.toNat + 1) } := rfl
@[simp] theorem countStrobe_inputs (s : State) : (countStrobe s).inputs = s.inputs := rfl
@[simp] theorem countStrobe_trace (s : State) : (countStrobe s).trace = s.trace := rfl

/-! ### tick -/

@[simp] theorem tick_cfg (s : State) : (tick s).cfg = s.cfg := rfl
@[simp] theorem tick_afterReset (s : State) : (tick s).afterReset = s.afterReset := rfl
@[simp] theorem tick_regs (s : State) : (tick s).regs = advance s.cfg s.regs := rfl
@[simp] theorem tick_inputs (s : State) : (tick s).inputs = s.inputs := rfl
@[simp] theorem tick_trace (s : State) : (tick s).trace = s.trace ++
      [.sample (code s.cfg (nextIndex s.cfg s.regs.idxA).toNat) (code s.cfg (nextIndex s.cfg s.regs.idxB).toNat)] := rfl

/-! ### retarget -/

@[simp] theorem retarget_cfg (f : Int) (s : State) : (retarget f s).cfg = s.cfg := rfl
@[simp] theorem retarget_afterReset (f : Int) (s : State) : (retarget f s).afterReset = s.afterReset := rfl
@[simp] theorem retarget_regs (f : Int) (s : State) : (retarget f s).regs = { s.regs with
        freq := uint32 f
        period := uint32 (periodOf s.cfg f)
        tcnt := 0#32
        retargets := BitVec.ofNat 32 (s.regs.retargets.toNat + 1) } := rfl
@[simp] theorem retarget_inputs (f : Int) (s : State) : (retarget f s).inputs = s.inputs := rfl
@[simp] theorem retarget_trace (f : Int) (s : State) : (retarget f s).trace = s.trace ++ [.retarget (uint32 f) (uint32 (periodOf s.cfg f))] := rfl

/-! ### applyReset -/

@[simp] theorem applyReset_cfg (s : State) : (applyReset s).cfg = s.cfg := rfl
@[simp] theorem applyReset_afterReset (s : State) : (applyReset s).afterReset = true := rfl
@[simp] theorem applyReset_regs (s : State) : (applyReset s).regs = resetRegs s.cfg := rfl
@[simp] theorem applyReset_inputs (s : State) : (applyReset s).inputs = s.inputs := rfl
@[simp] theorem applyReset_trace (s : State) : (applyReset s).trace = s.trace := rfl

/-! ### withFetchWord -/

@[simp] theorem withFetchWord_cfg (s : State) (nbits w : Nat) : (s.withFetchWord nbits w).cfg = s.cfg := rfl
@[simp] theorem withFetchWord_afterReset (s : State) (nbits w : Nat) : (s.withFetchWord nbits w).afterReset = s.afterReset := rfl
@[simp] theorem withFetchWord_regs (s : State) (nbits w : Nat) : (s.withFetchWord nbits w).regs = s.regs := rfl
@[simp] theorem withFetchWord_inputs (s : State) (nbits w : Nat) : (s.withFetchWord nbits w).inputs = tableWord nbits w :: s.inputs := rfl
@[simp] theorem withFetchWord_trace (s : State) (nbits w : Nat) : (s.withFetchWord nbits w).trace = s.trace := rfl

/-! ### advance -/

@[simp] theorem advance_idxA (c : Config) (r : Regs) : (advance c r).idxA = nextIndex c r.idxA := rfl
@[simp] theorem advance_idxB (c : Config) (r : Regs) : (advance c r).idxB = nextIndex c r.idxB := rfl
@[simp] theorem advance_freq (c : Config) (r : Regs) : (advance c r).freq = r.freq := rfl
@[simp] theorem advance_period (c : Config) (r : Regs) : (advance c r).period = r.period := rfl
@[simp] theorem advance_tcnt (c : Config) (r : Regs) : (advance c r).tcnt = r.tcnt := rfl
@[simp] theorem advance_retargets (c : Config) (r : Regs) : (advance c r).retargets = r.retargets := rfl

/-! ### resetRegs -/

@[simp] theorem resetRegs_idxA (c : Config) : (resetRegs c).idxA = BitVec.ofNat 16 c.Q := rfl
@[simp] theorem resetRegs_idxB (c : Config) : (resetRegs c).idxB = 0#16 := rfl
@[simp] theorem resetRegs_freq (c : Config) : (resetRegs c).freq = uint32 c.freqReset := rfl
@[simp] theorem resetRegs_period (c : Config) : (resetRegs c).period = uint32 (periodOf c c.freqReset) := rfl
@[simp] theorem resetRegs_tcnt (c : Config) : (resetRegs c).tcnt = 0#32 := rfl
@[simp] theorem resetRegs_retargets (c : Config) : (resetRegs c).retargets = 0#32 := rfl

/-! ### ofBuild -/

@[simp] theorem ofBuild_cfg (c : Config) : (State.ofBuild c).cfg = c := rfl
@[simp] theorem ofBuild_afterReset (c : Config) : (State.ofBuild c).afterReset = true := rfl
@[simp] theorem ofBuild_regs (c : Config) : (State.ofBuild c).regs = resetRegs c := rfl
@[simp] theorem ofBuild_inputs (c : Config) : (State.ofBuild c).inputs = [] := rfl
@[simp] theorem ofBuild_trace (c : Config) : (State.ofBuild c).trace = [] := rfl

/-! ### powerUp -/

@[simp] theorem powerUp_cfg (c : Config) (junk : Regs) : (State.powerUp c junk).cfg = c := rfl
@[simp] theorem powerUp_afterReset (c : Config) (junk : Regs) : (State.powerUp c junk).afterReset = false := rfl
@[simp] theorem powerUp_regs (c : Config) (junk : Regs) : (State.powerUp c junk).regs = junk := rfl
@[simp] theorem powerUp_inputs (c : Config) (junk : Regs) : (State.powerUp c junk).inputs = [] := rfl
@[simp] theorem powerUp_trace (c : Config) (junk : Regs) : (State.powerUp c junk).trace = [] := rfl

/-! ### The observation -/

@[simp] theorem samplesOf_nil : samplesOf [] = [] := rfl
@[simp] theorem retargetsOf_nil : retargetsOf [] = [] := rfl
@[simp] theorem readsOf_nil : readsOf [] = [] := rfl
@[simp] theorem samplesOf_sample (a b : Nat) (t : List Obs) : samplesOf (.sample a b :: t) = (a, b) :: samplesOf t := rfl
@[simp] theorem samplesOf_retarget (f p : Word) (t : List Obs) : samplesOf (.retarget f p :: t) = samplesOf t := rfl
@[simp] theorem samplesOf_read (r : RegName) (v : Word) (t : List Obs) : samplesOf (.read r v :: t) = samplesOf t := rfl
@[simp] theorem retargetsOf_sample (a b : Nat) (t : List Obs) : retargetsOf (.sample a b :: t) = retargetsOf t := rfl
@[simp] theorem retargetsOf_retarget (f p : Word) (t : List Obs) :
    retargetsOf (.retarget f p :: t) = (f, p) :: retargetsOf t := rfl
@[simp] theorem retargetsOf_read (r : RegName) (v : Word) (t : List Obs) :
    retargetsOf (.read r v :: t) = retargetsOf t := rfl
@[simp] theorem readsOf_sample (a b : Nat) (t : List Obs) : readsOf (.sample a b :: t) = readsOf t := rfl
@[simp] theorem readsOf_retarget (f p : Word) (t : List Obs) : readsOf (.retarget f p :: t) = readsOf t := rfl
@[simp] theorem readsOf_read (r : RegName) (v : Word) (t : List Obs) : readsOf (.read r v :: t) = (r, v) :: readsOf t := rfl

@[simp] theorem samplesOf_append (t u : List Obs) : samplesOf (t ++ u) = samplesOf t ++ samplesOf u :=
  List.filterMap_append

@[simp] theorem retargetsOf_append (t u : List Obs) : retargetsOf (t ++ u) = retargetsOf t ++ retargetsOf u :=
  List.filterMap_append

@[simp] theorem readsOf_append (t u : List Obs) : readsOf (t ++ u) = readsOf t ++ readsOf u :=
  List.filterMap_append

/-- What was observed between two states, when the trace of the second continues that of the first. -/
theorem newObs_of_append {s t : State} {new : List Obs} (h : t.trace = s.trace ++ new) : newObs s t = new := by
  simp [newObs, h]

end Sys2Proof.Machine
end

