-- ==== Sys2Proof/Laws/Step.lean ====
section
/-! SUPPORT. What an event can do, said once (the inversion lemma of exec), and the ways into a run. -/

namespace Sys2Proof.Machine

@[simp] theorem exec_readEvent (r : RegName) (s : State) : exec (readEvent r) s = .next (readReg r s) := by
  cases r <;> rfl

/-- A write to a register other than FREQ leaves the whole state alone (R187 to R193). -/
@[simp] theorem exec_writeEvent_readOnly {r : RegName} (h : r ≠ .freq) (d : Word) (s : State) :
    exec (writeEvent r d) s = .next s := by
  cases r <;> first | rfl | exact absurd rfl h

/-- Every event is a read, a write, a strobe or a reset. -/
theorem instr_cases (i : Instr) :
    (∃ r, i = readEvent r) ∨ (∃ r d, i = writeEvent r d) ∨ i = .strobe ∨ i = .reset := by
  cases i with
  | rdFreq => exact .inl ⟨.freq, rfl⟩
  | rdPeriod => exact .inl ⟨.period, rfl⟩
  | rdPhase => exact .inl ⟨.phase, rfl⟩
  | rdSample => exact .inl ⟨.sample, rfl⟩
  | rdRetargets => exact .inl ⟨.retargets, rfl⟩
  | rdConfig => exact .inl ⟨.config, rfl⟩
  | rdFmin => exact .inl ⟨.fmin, rfl⟩
  | rdFmax => exact .inl ⟨.fmax, rfl⟩
  | wrFreq d => exact .inr (.inl ⟨.freq, d, rfl⟩)
  | wrPeriod d => exact .inr (.inl ⟨.period, d, rfl⟩)
  | wrPhase d => exact .inr (.inl ⟨.phase, d, rfl⟩)
  | wrSample d => exact .inr (.inl ⟨.sample, d, rfl⟩)
  | wrRetargets d => exact .inr (.inl ⟨.retargets, d, rfl⟩)
  | wrConfig d => exact .inr (.inl ⟨.config, d, rfl⟩)
  | wrFmin d => exact .inr (.inl ⟨.fmin, d, rfl⟩)
  | wrFmax d => exact .inr (.inl ⟨.fmax, d, rfl⟩)
  | strobe => exact .inr (.inr (.inl rfl))
  | reset => exact .inr (.inr (.inr rfl))

/-- Everything an event can do: it always answers a next state, and that state is one of these. -/
theorem exec_cases {i : Instr} {s t : State} (h : exec i s = .next t) :
    (∃ r, i = readEvent r ∧ t = readReg r s) ∨
    (∃ r d, i = writeEvent r d ∧ r ≠ .freq ∧ t = s) ∨
    (∃ d, i = .wrFreq d ∧ changesFreq s.cfg d s.regs = true ∧ t = retarget (clampFreq s.cfg d) s) ∨
    (∃ d, i = .wrFreq d ∧ changesFreq s.cfg d s.regs = false ∧ t = s) ∨
    (i = .strobe ∧ completesPeriod s.regs = true ∧ t = tick (clearCount s)) ∨
    (i = .strobe ∧ completesPeriod s.regs = false ∧ t = countStrobe s) ∨
    (i = .reset ∧ t = applyReset s) := by
  obtain ⟨r, rfl⟩ | ⟨r, d, rfl⟩ | rfl | rfl := instr_cases i
  · rw [exec_readEvent] at h
    exact .inl ⟨r, rfl, (Host.Outcome.next.inj h).symm⟩
  · by_cases hr : r = .freq
    · subst hr
      simp only [writeEvent, exec, execWrFreq] at h ⊢
      split at h
      · exact .inr (.inr (.inl ⟨d, rfl, ‹_›, (Host.Outcome.next.inj h).symm⟩))
      · exact .inr (.inr (.inr (.inl ⟨d, rfl, eq_false_of_ne_true ‹_›, (Host.Outcome.next.inj h).symm⟩)))
    · rw [exec_writeEvent_readOnly hr] at h
      exact .inr (.inl ⟨r, d, rfl, hr, (Host.Outcome.next.inj h).symm⟩)
  · simp only [exec, execStrobe] at h
    split at h
    · exact .inr (.inr (.inr (.inr (.inl ⟨rfl, ‹_›, (Host.Outcome.next.inj h).symm⟩))))
    · exact .inr (.inr (.inr (.inr (.inr (.inl ⟨rfl, eq_false_of_ne_true ‹_›, (Host.Outcome.next.inj h).symm⟩)))))
  · exact .inr (.inr (.inr (.inr (.inr (.inr ⟨rfl, (Host.Outcome.next.inj h).symm⟩)))))

/-- No event reads the pending input: with another one behind it an event does the same. -/
theorem exec_inputs {i : Instr} {s t : State} (h : exec i s = .next t) (rest : List EventWord) :
    exec i { s with inputs := rest } = .next { t with inputs := rest } := by
  cases i
  case wrFreq d =>
    simp only [exec, execWrFreq] at h ⊢
    split at h <;> cases h
    · simp_all
      rfl
    · simp_all
  case strobe => simp only [exec, execStrobe] at h ⊢; split at h <;> cases h <;> (simp_all; rfl)
  all_goals cases h; rfl

/-- In a built block after its first RESET, taking an event is running it. -/
theorem takeEvent_running {s : State} (hv : s.cfg.valid = true) (ha : s.afterReset = true) (i : Instr) :
    takeEvent i s = exec i s := by
  rw [takeEvent, if_pos hv, if_pos (by rw [ha, Bool.true_or])]

/-- A RESET is taken at any time. -/
theorem takeEvent_reset {s : State} (hv : s.cfg.valid = true) : takeEvent .reset s = exec .reset s := by
  simp [takeEvent, hv]

/-- What a taken event says of the state it was taken in. -/
theorem takeEvent_next {i : Instr} {s t : State} (h : takeEvent i s = .next t) :
    s.cfg.valid = true ∧ (s.afterReset = true ∨ i = .reset) ∧ exec i s = .next t := by
  by_cases hv : s.cfg.valid = true
  · rw [takeEvent, if_pos hv] at h
    by_cases hr : (s.afterReset || i == .reset) = true
    · rw [if_pos hr] at h
      exact ⟨hv, by simpa using hr, h⟩
    · rw [if_neg hr] at h
      cases h
  · rw [takeEvent, if_neg hv] at h
    cases h

@[simp] theorem andThen_next {α : Type} (a : α) (f : α → Host.Outcome α Fault Refusal) :
    andThen (.next a) f = f a := rfl

/-- A sequence completes when its first part does and its second part completes from there. -/
theorem andThen_eq_next {α : Type} {o : Host.Outcome α Fault Refusal} {f : α → Host.Outcome α Fault Refusal} {b : α}
    (h : andThen o f = .next b) : ∃ a, o = .next a ∧ f a = .next b := by
  cases o with
  | next a => exact ⟨a, rfl, h⟩
  | fault x => cases h
  | refused r => cases h

/-- The empty run of a built block. -/
theorem runEvents_nil {s : State} (hv : s.cfg.valid = true) : runEvents [] s = .next s := by
  rw [runEvents, takeNothing, if_pos hv]

/-- A run of one more event. -/
theorem runEvents_cons {i : Instr} {s t : State} (h : takeEvent i s = .next t) (es : List Instr) :
    runEvents (i :: es) s = runEvents es t := by
  rw [runEvents, h, andThen_next]

/-- A run that completes begins with an event that is taken. -/
theorem runEvents_cons_next {i : Instr} {es : List Instr} {s u : State} (h : runEvents (i :: es) s = .next u) :
    ∃ t, takeEvent i s = .next t ∧ runEvents es t = .next u :=
  andThen_eq_next (by rwa [runEvents] at h)

/-- A run that completes ends in a built block. -/
theorem runEvents_nil_next {s t : State} (h : runEvents [] s = .next t) : s.cfg.valid = true ∧ t = s := by
  by_cases hv : s.cfg.valid = true
  · rw [runEvents_nil hv] at h
    exact ⟨hv, (Host.Outcome.next.inj h).symm⟩
  · rw [runEvents, takeNothing, if_neg hv] at h
    cases h

end Sys2Proof.Machine
end

