-- ==== Sys2Proof/Tests/Slice0.lean ====
section
/-! SUPPORT. The model's own tests. Expected results are those of spec/95_test_vectors.md and of the rules' worked
examples; each test's docstring names its source. The witness theorems show that the hypotheses of the statements in
Certificates/Slice0/Obligations.lean can be met. -/

namespace Sys2Proof.Tests

open Sys2Proof.Machine Sys2Proof.Asm

/-- A state of a build, its tuple S in the order of R20. -/
def mk (c : Config) (idxA idxB freq period tcnt retargets : Nat) : State :=
  { State.ofBuild c with
    regs := ⟨BitVec.ofNat 16 idxA, BitVec.ofNat 16 idxB, BitVec.ofNat 32 freq, BitVec.ofNat 32 period,
      BitVec.ofNat 32 tcnt, BitVec.ofNat 32 retargets⟩ }

/-- The tuple S and what was observed, when an outcome is a next state. -/
def seen (o : Host.Outcome State Fault Refusal) : Option (Regs × List Obs) :=
  match o with
  | .next s => some (s.regs, s.trace)
  | .fault _ => none
  | .refused _ => none

/-- The reason, when an outcome is a refusal. -/
def refusal (o : Host.Outcome State Fault Refusal) : Option Refusal :=
  match o with
  | .next _ => none
  | .fault _ => none
  | .refused r => some r

/-- What an event does from a state: S and the observation after it. -/
abbrev run1 (i : Instr) (s : State) : Option (Regs × List Obs) := seen (exec i s)

/-- The expected end of a test: S of a state, and an observation. -/
abbrev ends (s : State) (t : List Obs) : Option (Regs × List Obs) := some (s.regs, t)

/-! ### WellFormed: each check refuses an ill-formed term -/

theorem test_examples_valid : EX1.valid = true ∧ EX2.valid = true := by decide +kernel
/-- V60.1. -/
theorem test_bad_N_mod_4 : { EX2 with N := 6, table := [8, 13, 15, 13, 8, 2] }.valid = false := by decide
theorem test_bad_N_small : { EX2 with N := 0, table := [] }.valid = false := by decide
theorem test_bad_N_large : { EX2 with N := 65536 }.valid = false := by decide
theorem test_bad_R_zero : { EX2 with R := 0 }.valid = false := by decide
/-- V60.2. -/
theorem test_bad_R_large : { EX2 with R := 17 }.valid = false := by decide
theorem test_bad_freqMin : { EX2 with freqMin := 0 }.valid = false := by decide
/-- V60.5. -/
theorem test_bad_freqMin_product :
    { EX2 with N := 4, freqMin := 3, table := [8, 15, 8, 0] }.valid = false := by decide
theorem test_bad_freq_order : { EX2 with freqMin := 0x00020000, freqMax := 0x00010000 }.valid = false := by decide
/-- V60.3. -/
theorem test_bad_freqMax : { EX2 with freqMax := 0x80000000 }.valid = false := by decide
/-- V60.4. -/
theorem test_bad_freqMax_product : { EX1 with freqMax := 0x7A120000 }.valid = false := by decide
theorem test_bad_freqReset_low : { EX2 with freqReset := 0x0000FFFF }.valid = false := by decide
theorem test_bad_freqReset_high : { EX2 with freqReset := 0x7A120001 }.valid = false := by decide
theorem test_bad_table_length : { EX2 with table := [8, 13, 15, 13, 8, 2, 0] }.valid = false := by decide
theorem test_bad_table_code : { EX2 with table := [8, 13, 16, 13, 8, 2, 0, 2] }.valid = false := by decide
theorem test_bad_clock : { EX2 with clkHz := 999999 }.clockOk = false ∧ EX2.clockOk = true := by decide
/-- R80; the words of 95_test_vectors.md 2.6. -/
theorem test_reserved_words :
    [0x0000000000#40, 0x3000000000#40, 0xF000000000#40, 0x1800000000#40, 0x2800000000#40, 0x2F00000000#40,
     0x1000000001#40, 0x4100000000#40, 0x4000000001#40, 0x8000000001#40].all (fun w => !wordWellFormed w) = true := by
  decide
/-- R83: the ranges of the immediates. -/
theorem test_bad_immediates :
    (Imm.hex 0x100000000).ok = false ∧ (Imm.dec 4294967296).ok = false ∧ (Imm.neg 0).ok = false ∧
    (Imm.neg 2147483649).ok = false ∧ (Item.wr .freq (.neg 0)).ok = false := by decide
/-- R72, R83: the order of a group. -/
theorem test_bad_groups :
    groupOrderOk [] = false ∧ groupOrderOk [.strobe, .rd .freq] = false ∧ groupOrderOk [.reset, .strobe] = false ∧
    groupOrderOk [.wr .freq (.dec 0), .strobe] = false ∧ groupOrderOk [.strobe, .strobe] = false ∧
    groupOk .oneAccess [.rd .phase, .strobe, .wr .freq (.dec 0)] = false ∧ groupOk .readAndWrite [.strobe, .rd .freq] = false := by
  decide
/-- The groups of programs P4 and P5 (spec/95_test_vectors.md) under the two readings of R83: both admit P5's, and only
`readAndWrite` admits P4's. -/
theorem test_group_readings :
    groupOk .oneAccess [.rd .sample, .strobe] = true ∧ groupOk .readAndWrite [.rd .sample, .strobe] = true ∧
    groupOk .oneAccess [.rd .phase, .strobe, .wr .freq (.hex 0x61A80000)] = false ∧
    groupOk .readAndWrite [.rd .phase, .strobe, .wr .freq (.hex 0x61A80000)] = true := by decide

/-! ### Decode: the words of R82, written out -/

theorem test_decode_reads :
    [0x1000000000#40, 0x1100000000#40, 0x1200000000#40, 0x1300000000#40, 0x1400000000#40, 0x1500000000#40,
     0x1600000000#40, 0x1700000000#40].map (fun w => (decode w).toOption) =
    [some .rdFreq, some .rdPeriod, some .rdPhase, some .rdSample, some .rdRetargets, some .rdConfig, some .rdFmin,
     some .rdFmax] := by decide
/-- The ignored writes of 95_test_vectors.md 2.4, and `setf 50`. -/
theorem test_decode_writes :
    [0x2000320000#40, 0x2100000001#40, 0x2212345678#40, 0x23FFFFFFFF#40, 0x2400000000#40, 0x2500000000#40,
     0x267FFFFFFF#40, 0x2700000001#40].map (fun w => (decode w).toOption) =
    [some (.wrFreq 0x00320000#32), some (.wrPeriod 1#32), some (.wrPhase 0x12345678#32),
     some (.wrSample 0xFFFFFFFF#32), some (.wrRetargets 0#32), some (.wrConfig 0#32), some (.wrFmin 0x7FFFFFFF#32),
     some (.wrFmax 1#32)] := by decide
theorem test_decode_events :
    (decode 0x4000000000#40).toOption = some .strobe ∧ (decode 0x8000000000#40).toOption = some .reset := by decide
theorem test_decode_rejects :
    [0x0000000000#40, 0x1800000000#40, 0x2F00000000#40, 0x1000000001#40, 0x4100000000#40, 0x8000000001#40].map
      (fun w => (decode w).toOption) = [none, none, none, none, none, none] := by decide
theorem test_decodeTableWord :
    decodeTableWord 40 0x2712345678 = some (.wrFmax 0x12345678#32) ∧ decodeTableWord 40 0x4000000000 = some .strobe := by
  decide
theorem test_encode_write : encode (.wrFreq 0xFFFFFFFF#32) = 0x20FFFFFFFF#40 ∧ encode .reset = 0x8000000000#40 := by decide

/-! ### The events -/

/-- V41.1. -/
theorem test_strobe_counts :
    run1 .strobe (mk EX2 2 0 0x7A120000 4 0 1) = ends (mk EX2 2 0 0x7A120000 4 1 1) [] := by decide
/-- V41.3: idxA wraps. -/
theorem test_strobe_ticks :
    run1 .strobe (mk EX2 7 5 0x7A120000 4 3 1) = ends (mk EX2 0 6 0x7A120000 4 0 1) [.sample 8 0] := by decide
/-- V41.7. -/
theorem test_strobe_ticks_ex1 :
    run1 .strobe (mk EX1 150 0 0x00010000 1666 1665 0) =
      ends (mk EX1 151 1 0x00010000 1666 0 0) [.sample 4095 2069] := by decide +kernel
/-- V42.4: one LSB is a change, and `retargets` wraps. -/
theorem test_wrFreq_retargets :
    run1 (.wrFreq 0x00320001#32) (mk EX2 5 3 0x00320000 2500 77 0xFFFFFFFF) =
      ends (mk EX2 5 3 0x00320001 2499 0 0) [.retarget 0x00320001#32 2499#32] := by decide
/-- V42.3: a negative word clamps to the current frequency. -/
theorem test_wrFreq_noop :
    run1 (.wrFreq 0x80000000#32) (mk EX1 151 1 0x00010000 1666 900 2) =
      ends (mk EX1 151 1 0x00010000 1666 900 2) [] := by decide
/-- V42.5. -/
theorem test_rdFreq :
    run1 .rdFreq (mk EX2 5 3 0x61A80000 5 2 1) =
      ends (mk EX2 5 3 0x61A80000 5 2 1) [.read .freq 0x61A80000#32] := by decide
/-- R180. -/
theorem test_rdPeriod :
    run1 .rdPeriod (mk EX1 150 0 0x00320000 33 0 1) =
      ends (mk EX1 150 0 0x00320000 33 0 1) [.read .period 0x00000021#32] := by decide
/-- 95_test_vectors.md 2.4. -/
theorem test_rdPhase :
    run1 .rdPhase (mk EX2 7 5 0x7A120000 4 0 1) =
      ends (mk EX2 7 5 0x7A120000 4 0 1) [.read .phase 0x00070005#32] := by decide
/-- R182. -/
theorem test_rdSample :
    run1 .rdSample (mk EX2 4 2 0x61A80000 5 0 1) =
      ends (mk EX2 4 2 0x61A80000 5 0 1) [.read .sample 0x0008000F#32] := by decide
/-- 95_test_vectors.md 2.4. -/
theorem test_rdSample_ex1 :
    run1 .rdSample (mk EX1 152 2 0x00010000 1666 0 0) =
      ends (mk EX1 152 2 0x00010000 1666 0 0) [.read .sample 0x0FFF082A#32] := by decide +kernel
/-- R183. -/
theorem test_rdRetargets :
    run1 .rdRetargets (mk EX1 150 0 0x00320000 33 0 1) =
      ends (mk EX1 150 0 0x00320000 33 0 1) [.read .retargets 1#32] := by decide
/-- R184. -/
theorem test_rdConfig :
    run1 .rdConfig (State.ofBuild EX1) = ends (State.ofBuild EX1) [.read .config 0x000C0258#32] := by decide
/-- R185. -/
theorem test_rdFmin :
    run1 .rdFmin (State.ofBuild EX1) = ends (State.ofBuild EX1) [.read .fmin 0x00010000#32] := by decide
/-- R186. -/
theorem test_rdFmax :
    run1 .rdFmax (State.ofBuild EX2) = ends (State.ofBuild EX2) [.read .fmax 0x7A120000#32] := by decide
/-- The ignored writes of 95_test_vectors.md 2.4. -/
theorem test_ignored_writes :
    [Instr.wrPeriod 1#32, .wrPhase 0x12345678#32, .wrSample 0xFFFFFFFF#32, .wrRetargets 0#32, .wrConfig 0#32,
     .wrFmin 0x7FFFFFFF#32, .wrFmax 1#32].all
      (fun i => decide (run1 i (mk EX2 4 2 0x61A80000 5 3 7) = ends (mk EX2 4 2 0x61A80000 5 3 7) [])) = true := by
  decide
/-- V70.1. -/
theorem test_reset :
    run1 .reset (mk EX2 4 2 0x61A80000 5 3 7) = ends (mk EX2 2 0 0x00010000 125000 0 0) [] := by decide

/-! ### The step, refusals, ports, assembler -/

/-- R231, 95_test_vectors.md: S0(EX2). -/
theorem test_state_reset : State.reset.regs = (mk EX2 2 0 0x00010000 125000 0 0).regs ∧ State.reset.trace = [] := by decide
theorem test_step_takes_word :
    seen (step (State.reset.withFetchWord 40 0x4000000000)) = ends (mk EX2 2 0 0x00010000 125000 1 0) [] := by decide
theorem test_step_idle : seen (step State.reset) = ends State.reset [] := by decide
/-- V60.6. -/
theorem test_before_reset :
    refusal (takeWord 0x4000000000#40 (State.powerUp EX2 (resetRegs EX2))) = some .beforeReset := by decide
/-- V60.7. -/
theorem test_reserved_event :
    refusal (takeWord 0x1800000000#40 State.reset) = some (.reservedEvent 0x1800000000#40) := by decide
theorem test_bad_config : refusal (takeWord 0x8000000000#40 (State.ofBuild { EX2 with R := 17 })) = some .badConfig := by
  decide
/-- V70.4: the strobe and the write of a reset's cycle are discarded. -/
theorem test_reset_cycle :
    eventsOf { rst := true, usStrobe := true, busSel := true, busWe := true, busAddr := 0#3, busWdata := 5#32 } =
      [.reset] := by decide
/-- R72: strobe before write; R73: no read, no data. -/
theorem test_cycle_order :
    let p : PortIn :=
      { rst := false, usStrobe := true, busSel := true, busWe := true, busAddr := 0#3, busWdata := 0x61A80000#32 }
    eventsOf p = [.strobe, .wrFreq 0x61A80000#32] ∧ busRdata p State.reset = 0#32 := by decide
/-- Assembler vectors of 95_test_vectors.md 2.6. -/
theorem test_assembler_text :
    assembleText .readAndWrite ("setf 12.23 // P = 136\nsetf -1\nwr FREQ, -1\nstrobe * 2\nnop\n".toList ++
      [openBrace] ++ " rd PHASE | strobe | wr FREQ, 0x61A8_0000 ".toList ++ [closeBrace]) =
    some [0x20000C3AE1#40, 0x20FFFF0000#40, 0x20FFFFFFFF#40, 0x4000000000#40, 0x4000000000#40,
      0x1200000000#40, 0x4000000000#40, 0x2061A80000#40] := by decide +kernel
theorem test_assembler_refuses :
    assembleText .readAndWrite "setf 32768".toList = none ∧ assembleText .readAndWrite "strobe * 0".toList = none ∧
    assembleText .readAndWrite "rd freq".toList = none ∧
    assembleText .oneAccess ([openBrace] ++ "rd PHASE | wr FREQ, 1".toList ++ [closeBrace]) = none := by decide +kernel
/-- The model's own choices (assumption log, entries 23 and 24). -/
theorem test_assembler_choices :
    assembleText .oneAccess "strobe\nsetf 32768\nstrobe".toList = none ∧
    assembleText .oneAccess "strobe * 0x2".toList = none ∧
    assembleText .oneAccess "strobe * 2".toList = some [0x4000000000#40, 0x4000000000#40] := by decide +kernel
/-- R52, R53, R57: the bridge. -/
theorem test_bridge :
    bridgeReg EX2 0x0F = some .sample ∧ bridgeReg EX2 0x20 = none ∧ laneByte 0x12345678#32 1 = 0x56#8 := by decide
/-- R101, R103, R104 for EX2 (95_test_vectors.md 2.1); the formula itself is `ex2_tableFormula`. -/
theorem test_table : code EX2 0 = 8 ∧ code EX2 2 = 15 ∧ code EX2 6 = 0 ∧ code EX2 7 = 2 := by decide

/-- R105, R106 over both tables of 95_test_vectors.md 2.1; and the source's version of the symmetry fails, as
90_conflicts.md C1 says: 4095 at 150, 0 at 450. -/
theorem test_symmetry_ex2 : OddSymmetry EX2 ∧ EvenSymmetry EX2 := by decide
theorem test_symmetry_ex1 : OddSymmetry EX1 ∧ EvenSymmetry EX1 := by decide +kernel
theorem test_no_source_symmetry : code EX1 150 = 4095 ∧ code EX1 (oppositeIndex EX1 150) = 0 := by decide +kernel

/-! ### Witnesses: the hypotheses of the statements can be met -/

/-- EX2 running with period 4, three strobes counted. -/
def fast : State := mk EX2 2 0 0x7A120000 4 3 1

/-- EX2 running with period 4, no strobe counted. -/
def fast0 : State := mk EX2 2 0 0x7A120000 4 0 1

theorem fast_live : Live fast ∧ Live fast0 := by decide

theorem witness_ReservedWordsExactly :
    wordWellFormed 0x1800000000#40 = false ∧ State.reset.cfg.valid = true ∧ State.reset.afterReset = true ∧
    Instr.strobe ∈ eventsOf ⟨false, true, true, false, 0#3, 0#32⟩ := by decide
theorem witness_OpcodeRowsDisjoint :
    opcodeMap[0] ∈ opcodeMap ∧ opcodeMap[0].selects 0x1000000000#40 = true := by decide
theorem witness_StepRunsPendingEvent :
    (State.reset.withFetchWord 40 0x4000000000).inputs = 0x4000000000#40 :: [] ∧
    (decode 0x4000000000#40).toOption = some .strobe ∧ State.reset.cfg.valid = true ∧
    State.reset.afterReset = true ∧ State.reset.inputs = [] := by decide
/-- A state refused for each of the three reasons. -/
theorem witness_RefusesExactlyThreeInputs :
    refusal (step (State.ofBuild { EX2 with R := 17 })) = some .badConfig ∧
    refusal (step (State.reset.withFetchWord 40 0x1800000000)) = some (.reservedEvent 0x1800000000#40) ∧
    refusal (step ((State.powerUp EX2 (resetRegs EX2)).withFetchWord 40 0x4000000000)) = some .beforeReset := by decide
/-- A reserved word before the first RESET, where two refusals apply: both disjuncts' conditions hold, and a step refuses. -/
theorem witness_RefusesExactlyThreeInputs_meet :
    let s := (State.powerUp EX2 (resetRegs EX2)).withFetchWord 40 0x1800000000
    s.inputs = [0x1800000000#40] ∧ wordWellFormed 0x1800000000#40 = false ∧ s.afterReset = false ∧
    (decode 0x1800000000#40).toOption ≠ some .reset ∧ (refusal (step s)).isSome = true := by decide
theorem witness_NoEventFails :
    wordWellFormed 0x2000000000#40 = true ∧ accessOfReg .period = .RO ∧ State.reset.cfg.valid = true ∧ State.reset.afterReset = true := by decide
theorem witness_EveryEventFrame : ∃ t, exec .strobe fast = .next t ∧ t.trace = fast.trace ++ [.sample 13 13] :=
  ⟨_, rfl, by decide⟩
/-- A strobe that moves the indices and the count. -/
theorem witness_FieldsHaveTheirWriters_strobe :
    ∃ t, exec .strobe fast = .next t ∧ t.regs.idxA ≠ fast.regs.idxA ∧ t.regs.tcnt ≠ fast.regs.tcnt :=
  ⟨_, rfl, by decide, by decide⟩
/-- A write that moves frequency, period, count and retargets. -/
theorem witness_FieldsHaveTheirWriters_write :
    ∃ t, exec (.wrFreq 0#32) fast = .next t ∧ t.regs.freq ≠ fast.regs.freq ∧ t.regs.period ≠ fast.regs.period ∧
      t.regs.retargets ≠ fast.regs.retargets ∧ t.regs.tcnt ≠ fast.regs.tcnt :=
  ⟨_, rfl, by decide, by decide, by decide, by decide⟩
theorem witness_ResetInstallsResetValues :
    fast.cfg.valid = true ∧ (PortIn.mk true true true true 0#3 5#32).rst = true ∧
    (Board.mk fast true false).st.cfg.valid = true := by decide
theorem witness_RegisterFileAfterReset : EX2.valid = true ∧ TableFormula EX2 := ⟨by decide, ex2_tableFormula⟩
theorem witness_RegisterFileAfterReset_ex1 : EX1.valid = true ∧ TableFormula EX1 :=
  ⟨by decide +kernel, SineEX1.ex1_tableFormula⟩
/-- From power-up, with registers that no reset leaves and both pulses up. -/
theorem witness_OutputsAfterReset_cycle :
    let b : Board := ⟨State.powerUp EX2 ⟨9#16, 9#16, 0#32, 0#32, 7#32, 7#32⟩, true, true⟩
    b.st.cfg.valid = true ∧ TableFormula b.st.cfg ∧ (PortIn.mk true true true true 0#3 5#32).rst = true :=
  ⟨by decide, ex2_tableFormula, by decide⟩
theorem witness_OutputsAfterReset :
    EX2.valid = true ∧ TableFormula EX2 ∧ cycleRead ⟨false, true, false, false, 0#3, 0#32⟩ = none :=
  ⟨by decide, ex2_tableFormula, by decide⟩
theorem witness_StepKeepsInvariant :
    Inv (fast.withFetchWord 40 0x4000000000) ∧ (seen (step (fast.withFetchWord 40 0x4000000000))).isSome = true := by
  decide
theorem witness_ReachableStatesKeepRelations :
    ∃ t : State, Host.Core.run Sys2Proof.core 2
        { State.powerUp EX2 ⟨9#16, 9#16, 0#32, 0#32, 7#32, 7#32⟩ with
          inputs := [0x8000000000#40, 0x2061A80000#40] } = .next t ∧
      EX2.valid = true ∧ t.afterReset = true ∧ t.regs.period = 5#32 :=
  ⟨_, rfl, by decide, by decide, by decide⟩
/-- Both clauses, the second at its boundary. -/
theorem witness_StrobeCountsOrTicks :
    fast.cfg.valid = true ∧ fast.regs.tcnt.toNat + 1 = fast.regs.period.toNat ∧
    (mk EX2 2 0 0x7A120000 4 2 1).regs.tcnt.toNat + 1 < (mk EX2 2 0 0x7A120000 4 2 1).regs.period.toNat := by decide
theorem witness_AtMostOneTickPerEvent :
    ∃ t u, exec .strobe fast = .next t ∧ samplesOf (newObs fast t) ≠ [] ∧
      exec .strobe fast0 = .next u ∧ samplesOf (newObs fast0 u) = [] ∧ fast.cfg.valid = true :=
  ⟨_, _, rfl, by decide, rfl, by decide, by decide⟩
theorem witness_TickKeepsQuadrature :
    fast.cfg.valid = true ∧ fast.regs.tcnt.toNat + 1 = fast.regs.period.toNat ∧
    fast.regs.idxA.toNat = (fast.regs.idxB.toNat + fast.cfg.Q) % fast.cfg.N := by decide
/-- A quiet run that ticks: a strobe, reads, an ignored write and a write of the unchanged frequency. -/
theorem witness_TicksOfQuietRun :
    Live fast ∧ [Instr.strobe, .rdPhase, .wrPhase 1#32, .wrFreq 0x7FFFFFFF#32, .strobe].all
      (quiet fast.cfg fast.regs.freq) = true := by decide
theorem witness_FirstTickAFullPeriodLater :
    Live fast ∧ clampFreq fast.cfg 0x61A80000#32 ≠ (fast.regs.freq.toNat : Int) ∧
    ∃ u, exec (.wrFreq 0x61A80000#32) fast = .next u ∧
      (List.replicate 5 Instr.strobe).all (quiet u.cfg u.regs.freq) = true ∧
      strobeCount (List.replicate 5 .strobe) = u.regs.period.toNat ∧
      strobeCount (List.replicate 4 .strobe) < u.regs.period.toNat :=
  ⟨by decide, by decide, _, rfl, by decide, by decide, by decide⟩
/-- A retarget, then strobes forever. -/
theorem witness_FairStrobesKeepTicking :
    ∃ (u : State) (w : Nat → Instr), Live fast ∧ FairStrobes w ∧ runEvents (firstEvents w 1) fast = .next u ∧
      u.regs.freq = 0x61A80000#32 ∧ ∀ n, 1 ≤ n → quiet u.cfg u.regs.freq (w n) = true :=
  ⟨_, fun n => if n = 0 then .wrFreq 0x61A80000#32 else .strobe, by decide,
    fun n => ⟨n + 1, by omega, by simp⟩, rfl, by decide, fun n h => by simp [show n ≠ 0 by omega, quiet]⟩
/-- A run after a RESET with nine samples, so that the ninth repeats the first. -/
theorem witness_SampleSequenceAfterReset :
    ∃ t, runEvents (.reset :: .wrFreq 0x7A120000#32 :: List.replicate 36 .strobe) State.reset = .next t ∧
      Instr.reset ∉ (.wrFreq 0x7A120000#32 :: List.replicate 36 .strobe : List Instr) ∧
      (samplesOf (newObs State.reset t))[0]? = some (13, 13) ∧ (samplesOf (newObs State.reset t))[8]? = some (13, 13) :=
  ⟨_, rfl, by decide, by decide +kernel, by decide +kernel⟩
/-- `Q = 2` ticks apart: A's code 13 at the first tick is B's at the third. -/
theorem witness_ChannelALeadsByQuarter :
    ∃ t, runEvents (List.replicate 9 .strobe) fast = .next t ∧ Live fast ∧
      Instr.reset ∉ (List.replicate 9 .strobe : List Instr) ∧
      (samplesOf (newObs fast t))[0]? = some (13, 13) ∧ (samplesOf (newObs fast t))[0 + fast.cfg.Q]? = some (2, 13) :=
  ⟨_, rfl, by decide, by decide, by decide +kernel, by decide +kernel⟩
theorem witness_OutputFrequencyBounds : Live fast0 := fast_live.2
/-- Both ends of the frequency range. -/
theorem witness_PeriodIsFloorOfQuotient :
    EX2.valid = true ∧ EX2.freqMin ≤ EX2.freqMax ∧ EX2.freqMin ≤ 0x00010000 ∧ 0x00010000 ≤ EX2.freqMax ∧
    EX2.freqMin ≤ 0x7A120000 ∧ 0x7A120000 ≤ EX2.freqMax := by decide
theorem witness_PeriodFunctionProperties :
    EX2.valid = true ∧ EX2.freqMin ≤ 0x00010000 ∧ (0x00010000 : Int) ≤ 0x7A120000 ∧ 0x7A120000 ≤ EX2.freqMax := by decide
/-- A word for each clause: zero, bit 31 set, and just above FREQ_MAX. -/
theorem witness_ClampOfWrittenWord :
    EX2.valid = true ∧ (0x00000000#32).toInt ≤ 0 ∧ (0x80000000#32).getLsbD 31 = true ∧
    EX2.freqMax < (0x7A120001#32).toInt := by decide
theorem witness_FreqWriteRetargetsOnChange :
    fast.cfg.valid = true ∧ clampFreq fast.cfg 0#32 ≠ (fast.regs.freq.toNat : Int) ∧
    clampFreq fast.cfg 0x7FFFFFFF#32 = (fast.regs.freq.toNat : Int) := by decide
/-- Two different words with one clamp, and two with different clamps. -/
theorem witness_CandidatesEqualExactlyWhenClampsEqual :
    fast.cfg.valid = true ∧ clampFreq fast.cfg 0#32 = clampFreq fast.cfg 0x80000000#32 ∧
    clampFreq fast.cfg 0x00010001#32 ≠ clampFreq fast.cfg 0x00010000#32 := by decide
theorem witness_SecondWriteOfSameWordIsNoOp :
    fast.cfg.valid = true ∧ fast.afterReset = true ∧ Instr.reset ∉ [Instr.strobe, .rdFreq] ∧
    clampFreq fast.cfg 0#32 ≠ (fast.regs.freq.toNat : Int) ∧
    clampFreq fast.cfg 0x7A120000#32 = (fast.regs.freq.toNat : Int) ∧
    ∀ x, Instr.wrFreq x ∉ [Instr.strobe, .rdFreq] :=
  ⟨by decide, by decide, by decide, by decide, by decide, fun _ => by simp⟩
theorem witness_RetargetsRegisterCountsRetargets :
    ∃ t, runEvents [.reset, .wrFreq 0x61A80000#32, .wrFreq 0x61A80000#32] State.reset = .next t ∧
      Instr.reset ∉ [Instr.wrFreq 0x61A80000#32, .wrFreq 0x61A80000#32] ∧ t.regs.retargets = 1#32 :=
  ⟨_, rfl, by decide, by decide⟩
theorem witness_UnchangedWriteDoesNotDisturb :
    ∃ s₁, fast.afterReset = true ∧ runEvents [.strobe] fast = .next s₁ ∧
      clampFreq s₁.cfg 0x7FFFFFFF#32 = (s₁.regs.freq.toNat : Int) :=
  ⟨_, by decide, rfl, by decide⟩
/-- Two writes, three and then no strobes apart, that keep a period of 4 and then 5 from ending. -/
theorem witness_RetargetStarvation :
    Live fast0 ∧ Starving fast0.cfg fast0.regs.freq.toNat fast0.regs.tcnt.toNat
      [([.strobe, .strobe, .strobe], 0x61A80000#32), ([.rdFreq], 0x7A120000#32)] :=
  ⟨by decide, by decide, by decide, by decide, by decide, by decide, by decide, trivial⟩
/-- From a count of 3 of a period of 4: a write before the next strobe, and then four strobes of a period of 5. -/
theorem witness_RetargetStarvation_count :
    Live fast ∧ fast.regs.tcnt = 3#32 ∧ Starving fast.cfg fast.regs.freq.toNat fast.regs.tcnt.toNat
      [([], 0x61A80000#32), ([.strobe, .strobe, .strobe, .strobe], 0x7A120000#32)] :=
  ⟨by decide, by decide, by decide, by decide, by decide, by decide, by decide, by decide, trivial⟩
theorem witness_valid_state : fast.cfg.valid = true ∧ fast.afterReset = true := by decide
/-- R43's hypothesis-free statement aside, the read statements' condition (PhaseReadPacksIndices, SampleReadPacksCodes,
ConfigReadPacksParameters, WholeRegisterReads, ReadAfterWriteSeesClamp). -/
theorem witness_reads : Live fast ∧ fast.cfg.valid = true := by decide
/-- The clauses of CycleTakesEventsInOrder: a reset cycle, another, and a completing strobe beside a changing write. -/
theorem witness_CycleTakesEventsInOrder :
    let p : PortIn := ⟨false, true, true, true, 0#3, 0x61A80000#32⟩
    (PortIn.mk true false false false 0#3 0#32).rst = true ∧
    Live fast ∧ p.rst = false ∧ p.usStrobe = true ∧ p.busSel = true ∧ p.busWe = true ∧
    regOfIndex p.busAddr = .freq ∧ completesPeriod fast.regs = true ∧
    clampFreq fast.cfg p.busWdata ≠ (fast.regs.freq.toNat : Int) := by decide
theorem witness_CycleTakesEventsInOrder_run :
    ∃ b', cycle ⟨false, true, true, true, 0#3, 0x61A80000#32⟩ ⟨fast, false, false⟩ = .next b' ∧
      b'.tickPulse = true ∧ b'.retargetPulse = true :=
  ⟨_, rfl, by decide, by decide⟩
theorem witness_BusReadDataFromBeforeEdge :
    fast.afterReset = true ∧ cycleRead ⟨false, true, true, false, 2#3, 0#32⟩ = some .phase ∧
    cycleRead ⟨false, true, true, true, 2#3, 0#32⟩ = none ∧ cycleRead ⟨true, true, true, false, 2#3, 0#32⟩ = none := by decide
theorem witness_DacFollowsIndices :
    ∃ b' o', Live fast0 ∧ cycle ⟨false, true, false, false, 0#3, 0#32⟩ ⟨fast0, false, false⟩ = .next b' ∧
      samplesOf (newObs fast0 b'.st) = [] ∧ outputs b' ⟨false, false, false, false, 0#3, 0#32⟩ = some o' ∧ o'.dacA = 15 :=
  ⟨_, _, by decide, rfl, by decide, rfl, by decide⟩
theorem witness_TableStatements :
    EX2.valid = true ∧ TableFormula EX2 ∧ 1 < EX2.N ∧ (1 ≠ 0 ∧ 1 ≠ EX2.N / 2) ∧ 4 = EX2.N / 2 :=
  ⟨by decide, ex2_tableFormula, by decide, by decide, by decide⟩
/-- The bounds of the immediates, groups admitted and refused, and both ends of `setf`. -/
theorem witness_AssemblerLines :
    4294967295 ≤ 2 ^ 32 - 1 ∧ (1 ≤ 2147483648 ∧ 2147483648 ≤ 2 ^ 31) ∧
    assembleLine .oneAccess (.item (.wr .freq (.hex 0x320000))) = some [0x2000320000#40] ∧
    (assembleLine .oneAccess (.group [.rd .phase, .strobe])).isSome = true ∧
    assembleLine .oneAccess (.group [.rd .phase, .wr .freq (.dec 0)]) = none ∧
    (assembleLine .readAndWrite (.group [.rd .phase, .wr .freq (.dec 0)])).isSome = true ∧
    (assembleLine .oneAccess (.group [.reset])).isSome = true ∧
    -2 ^ 31 ≤ setfRaw ⟨true, 32768, 0⟩ ∧ setfRaw ⟨true, 32768, 0⟩ ≤ 2 ^ 31 - 1 ∧
    2 ^ 31 - 1 < setfRaw ⟨false, 32768, 0⟩ ∧ setfRaw ⟨true, 32769, 0⟩ < -2 ^ 31 := by decide
theorem witness_ValidBuildsExactly : (State.ofBuild { EX2 with R := 17 }).cfg.valid = false := by decide
/-- A retarget and a strobe, with a third word pending behind them. -/
theorem witness_StepsRunPendingEvents :
    ∃ t, let s := { fast with inputs := [0x2061A80000#40, 0x4000000000#40, 0x8000000000#40] }
      s.cfg.valid = true ∧
      s.inputs = [Instr.wrFreq 0x61A80000#32, .strobe].map encode ++ [0x8000000000#40] ∧
      Host.Core.run Sys2Proof.core 2 s = .next t ∧ t.inputs = [0x8000000000#40] ∧ t.regs.tcnt = 1#32 :=
  ⟨_, by decide, by decide, rfl, by decide, by decide⟩

end Sys2Proof.Tests
end

/-! SUPPORT. The invariant of spec/10_state.md and spec/41_sampler.md carried by every event, step and run, the packed
registers as numbers, the two ROM entries of a reset, and the statements O9, O11 and O15. -/

namespace Sys2Proof.Machine

/-! ### The invariant: every event, every step and every run keeps it -/

/-- A frequency of the build, installed with its period, is in range and in relation (R26, R27, R159). -/
theorem installed_freq_period {c : Config} (h : c.valid = true) {f : Int} (h1 : c.freqMin ≤ f) (h2 : f ≤ c.freqMax) :
    c.freqMin ≤ ((uint32 f).toNat : Int) ∧ ((uint32 f).toNat : Int) ≤ c.freqMax ∧
    ((uint32 (periodOf c f)).toNat : Int) = periodOf c ((uint32 f).toNat : Int) ∧
    0 < (uint32 (periodOf c f)).toNat := by
  have hp := c.params_of_valid h
  have hf : ((uint32 f).toNat : Int) = f := uint32_toNat (by omega) (by omega)
  have hper := periodOf_toNat h h1 h2
  have hpos := (periodOf_bounds h h1 h2).1
  rw [hf]
  exact ⟨h1, h2, hper, by omega⟩

theorem regsInv_resetRegs {c : Config} (h : c.valid = true) : RegsInv c (resetRegs c) := by
  have hp := c.params_of_valid h
  have hQ := c.four_mul_Q h
  have hA := (resetRegs_toNat h).1
  have hlt : c.Q < c.N := by omega
  obtain ⟨hmin, hmax, hper, hpos⟩ := installed_freq_period (f := c.freqReset) h (by omega) (by omega)
  refine ⟨by omega, by simpa using c.N_pos h, ?_, hmin, hmax, hper, by simpa using hpos⟩
  simpa [Nat.mod_eq_of_lt hlt] using hA

/-- Both indices of a tick move by one, so the quarter between them stays (R25, R126). -/
theorem regsInv_advance {c : Config} (h : c.valid = true) {r : Regs} (hr : RegsInv c r) :
    RegsInv c (advance c { r with tcnt := 0#32 }) := by
  obtain ⟨-, -, hquarter, hmin, hmax, hper, hcnt⟩ := hr
  have hN := c.N_pos h
  refine ⟨?_, ?_, ?_, hmin, hmax, hper, Nat.zero_lt_of_lt hcnt⟩
  · simpa [nextIndex_toNat h] using Nat.mod_lt _ hN
  · simpa [nextIndex_toNat h] using Nat.mod_lt _ hN
  · simp only [advance_idxA, advance_idxB, nextIndex_toNat h]
    rw [hquarter, Nat.mod_add_mod, Nat.mod_add_mod, Nat.add_right_comm]

/-- A strobe that completes no period leaves the count below it (R122). -/
theorem regsInv_countStrobe {s : State} (hc : completesPeriod s.regs = false) (hr : RegsInv s.cfg s.regs) :
    RegsInv s.cfg (countStrobe s).regs := by
  obtain ⟨hA, hB, hquarter, hmin, hmax, hper, hcnt⟩ := hr
  have hne : s.regs.tcnt.toNat + 1 ≠ s.regs.period.toNat := beq_eq_false_iff_ne.mp hc
  have hlt := s.regs.period.isLt
  refine ⟨hA, hB, hquarter, hmin, hmax, hper, ?_⟩
  simp only [countStrobe_regs, BitVec.toNat_ofNat]
  omega

/-- A retarget installs a clamped frequency with its period and clears the count (R153, R159). -/
theorem regsInv_retarget {s : State} (h : s.cfg.valid = true) (d : Word) (hr : RegsInv s.cfg s.regs) :
    RegsInv s.cfg (retarget (clampFreq s.cfg d) s).regs := by
  obtain ⟨hA, hB, hquarter, -⟩ := hr
  obtain ⟨hlo, hhi⟩ := clampFreq_mem h d
  obtain ⟨hmin, hmax, hper, hpos⟩ := installed_freq_period h hlo hhi
  exact ⟨hA, hB, hquarter, hmin, hmax, hper, by simpa using hpos⟩

/-- No event writes the build (R20). -/
theorem exec_cfg {i : Instr} {s t : State} (h : exec i s = .next t) : t.cfg = s.cfg := by
  obtain ⟨r, -, rfl⟩ | ⟨r, d, -, -, rfl⟩ | ⟨d, -, -, rfl⟩ | ⟨d, -, -, rfl⟩ | ⟨-, -, rfl⟩ | ⟨-, -, rfl⟩ | ⟨-, rfl⟩ :=
    exec_cases h <;> rfl

theorem exec_keeps_inv {i : Instr} {s t : State} (hs : Inv s) (h : exec i s = .next t) : Inv t := by
  obtain ⟨hv, hr⟩ := hs
  obtain ⟨r, -, rfl⟩ | ⟨r, d, -, -, rfl⟩ | ⟨d, -, -, rfl⟩ | ⟨d, -, -, rfl⟩ | ⟨-, -, rfl⟩ | ⟨-, hc, rfl⟩ | ⟨-, rfl⟩ :=
    exec_cases h
  · exact ⟨hv, hr⟩
  · exact ⟨hv, hr⟩
  · exact ⟨hv, fun ha => regsInv_retarget hv d (hr ha)⟩
  · exact ⟨hv, hr⟩
  · exact ⟨hv, fun ha => regsInv_advance hv (hr ha)⟩
  · exact ⟨hv, fun ha => regsInv_countStrobe hc (hr ha)⟩
  · exact ⟨hv, fun _ => regsInv_resetRegs hv⟩

/-- A step that answers a next state ran in a built block: it had nothing pending and changed nothing, or it ran the
event of the next pending word. -/
theorem step_next {s t : State} (h : step s = .next t) :
    s.cfg.valid = true ∧
    ((s.inputs = [] ∧ t = s) ∨
     ∃ w rest i, s.inputs = w :: rest ∧ decode w = .ok i ∧ (s.afterReset = true ∨ i = .reset) ∧
       exec i { s with inputs := rest } = .next t) := by
  rw [step] at h
  split at h
  case h_1 hin =>
    obtain ⟨hv, rfl⟩ := runEvents_nil_next (by rwa [runEvents])
    exact ⟨hv, .inl ⟨hin, rfl⟩⟩
  case h_2 w rest hin =>
    rw [takeWord] at h
    split at h
    · split at h
      · obtain ⟨hv, ha, he⟩ := takeEvent_next h
        exact ⟨hv, .inr ⟨w, rest, _, hin, ‹_›, ha, he⟩⟩
      · cases h
    · cases h

theorem step_cfg {s t : State} (h : step s = .next t) : t.cfg = s.cfg := by
  obtain ⟨-, ⟨-, rfl⟩ | ⟨w, rest, i, -, -, -, he⟩⟩ := step_next h
  · rfl
  · exact exec_cfg (s := { s with inputs := rest }) he

theorem step_keeps_inv {s t : State} (hs : Inv s) (h : step s = .next t) : Inv t := by
  obtain ⟨-, ⟨-, rfl⟩ | ⟨w, rest, i, -, -, -, he⟩⟩ := step_next h
  · exact hs
  · exact exec_keeps_inv (s := { s with inputs := rest }) hs he

/-- What every step of a machine keeps, every run of it keeps. -/
theorem run_keeps {M : Host.Core} {P : M.State → Prop} (hstep : ∀ {s t}, P s → M.step s = .next t → P t) :
    ∀ (n : Nat) {s t : M.State}, P s → M.run n s = .next t → P t
  | 0, _, _, hs, h => Host.Outcome.next.inj h ▸ hs
  | n + 1, _, _, hs, h => by
    rw [Host.Core.run] at h
    split at h
    · exact run_keeps hstep n (hstep hs ‹_›) h
    · cases h
    · cases h

/-! ### The packed registers as numbers -/

/-- Two halves make the word with the first one above (R35, R36). -/
theorem half_append_toNat (a b : Half) : (a ++ b).toNat = a.toNat * 65536 + b.toNat := by
  rw [BitVec.toNat_append, ← Nat.shiftLeft_add_eq_or_of_lt b.isLt, Nat.shiftLeft_eq]

theorem phaseWord_toNat (r : Regs) : (phaseWord r).toNat = r.idxA.toNat * 65536 + r.idxB.toNat :=
  half_append_toNat _ _

theorem sampleWord_toNat {s : State} (h : s.cfg.valid = true) : (sampleWord s).toNat = outA s * 65536 + outB s := by
  have hA : outA s < 65536 := code_lt_half h _
  have hB : outB s < 65536 := code_lt_half h _
  rw [sampleWord, half_append_toNat]
  simp only [zext16, BitVec.toNat_ofNat]
  omega

theorem configWord_toNat {c : Config} (h : c.valid = true) : (configWord c).toNat = c.R * 65536 + c.N := by
  have hp := c.params_of_valid h
  rw [configWord, BitVec.toNat_append, ← Nat.shiftLeft_add_eq_or_of_lt (BitVec.isLt _), Nat.shiftLeft_eq,
    BitVec.toNat_append]
  simp only [BitVec.toNat_ofNat, Nat.zero_mod, Nat.zero_shiftLeft, Nat.zero_or]
  omega

/-! ### The two ROM entries of a reset (R103, R104) -/

/-- `M + 1 = 2 · 2^(R-1)`. -/
theorem M_add_one {c : Config} (h : c.valid = true) : c.M + 1 = 2 * 2 ^ (c.R - 1) := by
  have hp := c.params_of_valid h
  have hR : 2 ^ c.R = 2 * 2 ^ (c.R - 1) := by rw [← pow_succ', Nat.sub_add_cancel (by omega)]
  have := Nat.two_pow_pos c.R
  simp only [Config.M]
  omega

/-- Entry 0 lies on the tie `M / 2`, which rounds up to `2^(R-1)` (R104). -/
theorem code_zero {c : Config} (h : c.valid = true) (ht : TableFormula c) : code c 0 = 2 ^ (c.R - 1) := by
  have hM : (c.M : ℝ) + 1 = 2 * 2 ^ (c.R - 1) := by exact_mod_cast M_add_one h
  have hv : exactValue c 0 + 1 / 2 = ((2 ^ (c.R - 1) : Nat) : ℝ) := by
    simp only [exactValue, Nat.cast_zero, mul_zero, zero_div, Real.sin_zero]
    push_cast
    linarith
  have hc := ht 0 (c.N_pos h)
  rw [hv, Int.floor_natCast] at hc
  exact_mod_cast hc

/-- Entry `Q` lies at `π/2`, the top of the sine, and is `M` (R103). -/
theorem code_Q {c : Config} (h : c.valid = true) (ht : TableFormula c) : code c c.Q = c.M := by
  have hQ := c.four_mul_Q h
  have hpos := c.Q_pos h
  have hang : 2 * Real.pi * c.Q / c.N = Real.pi / 2 := by
    have hne : (c.Q : ℝ) ≠ 0 := by exact_mod_cast hpos.ne'
    rw [← hQ]
    push_cast
    field_simp
    norm_num
  have hv : exactValue c c.Q = c.M := by
    rw [exactValue, hang, Real.sin_pi_div_two]
    ring
  have hc := ht c.Q (by omega)
  rw [hv] at hc
  exact_mod_cast hc.trans (floor_half_eq (n := c.M) (by simp) (by simp)).symm

/-- Right after RESET channel A shows the top code (R30, R231). -/
theorem outA_ofBuild {c : Config} (h : c.valid = true) (ht : TableFormula c) : outA (State.ofBuild c) = c.M := by
  rw [outA, ofBuild_cfg, ofBuild_regs, (resetRegs_toNat h).1, code_Q h ht]

/-- Right after RESET channel B shows the midpoint code (R30, R231). -/
theorem outB_ofBuild {c : Config} (h : c.valid = true) (ht : TableFormula c) :
    outB (State.ofBuild c) = 2 ^ (c.R - 1) :=
  code_zero h ht

/-! ### The statements -/

/-- Settles O9: the writers of a field are read off `exec_cases`, effect by effect. -/
theorem fieldsHaveTheirWriters : Obligations.FieldsHaveTheirWriters := by
  intro i s t h
  obtain ⟨r, -, rfl⟩ | ⟨r, d, -, -, rfl⟩ | ⟨d, rfl, hc, rfl⟩ | ⟨d, -, -, rfl⟩ | ⟨rfl, -, rfl⟩ | ⟨rfl, -, rfl⟩ | ⟨rfl, rfl⟩ :=
    exec_cases h
  · simp
  · simp
  · simp [hc]
  · simp
  · simp
  · simp
  · simp

/-- The value of each register right after RESET (R41, R230). -/
theorem regValue_ofBuild {c : Config} (h : c.valid = true) (ht : TableFormula c) :
    ((regValue .freq (State.ofBuild c)).toNat : Int) = c.freqReset ∧
    ((regValue .period (State.ofBuild c)).toNat : Int) = periodOf c c.freqReset ∧
    (regValue .phase (State.ofBuild c)).toNat = c.Q * 65536 ∧
    (regValue .sample (State.ofBuild c)).toNat = c.M * 65536 + 2 ^ (c.R - 1) ∧
    (regValue .retargets (State.ofBuild c)).toNat = 0 ∧
    (regValue .config (State.ofBuild c)).toNat = c.R * 65536 + c.N ∧
    ((regValue .fmin (State.ofBuild c)).toNat : Int) = c.freqMin ∧
    ((regValue .fmax (State.ofBuild c)).toNat : Int) = c.freqMax := by
  have hp := c.params_of_valid h
  obtain ⟨hA, hfreq, hper⟩ := resetRegs_toNat h
  have hphase : (phaseWord (resetRegs c)).toNat = c.Q * 65536 := by
    rw [phaseWord_toNat, hA, resetRegs_idxB, BitVec.toNat_zero, Nat.add_zero]
  have hsample : (sampleWord (State.ofBuild c)).toNat = c.M * 65536 + 2 ^ (c.R - 1) := by
    rw [sampleWord_toNat (s := State.ofBuild c) h, outA_ofBuild h ht, outB_ofBuild h ht]
  have hfmin : ((uint32 c.freqMin).toNat : Int) = c.freqMin := uint32_toNat (by omega) (by omega)
  have hfmax : ((uint32 c.freqMax).toNat : Int) = c.freqMax := uint32_toNat (by omega) (by omega)
  exact ⟨hfreq, hper, hphase, hsample, rfl, configWord_toNat h, hfmin, hfmax⟩

/-- Settles O11: the general values from the formula, the example builds by evaluation. -/
theorem registerFileAfterReset : Obligations.RegisterFileAfterReset := by
  refine ⟨fun c => regValue_ofBuild, fun n => ?_, fun r => ?_, by decide +kernel⟩
  · rw [byteAddr, indexOfReg_regOfIndex]
  · cases r <;> simp [accessOfReg]

/-- Settles O15: power-up meets `Inv` before any RESET, and every run keeps `Inv` and the build. -/
theorem reachableStatesKeepRelations : Obligations.ReachableStatesKeepRelations := by
  intro c junk ws n t hv hrun ha
  have hinit : Inv { State.powerUp c junk with inputs := ws } := ⟨hv, fun hf => absurd hf Bool.false_ne_true⟩
  have hcfg : t.cfg = c :=
    run_keeps (M := Sys2Proof.core) (P := fun s : State => s.cfg = c) (fun hs h => (step_cfg h).trans hs) n rfl hrun
  obtain ⟨-, hregs⟩ : Inv t := run_keeps (M := Sys2Proof.core) (P := Inv) step_keeps_inv n hinit hrun
  obtain ⟨hA, hB, hquarter, hmin, hmax, hper, hcnt⟩ := hregs ha
  rw [hcfg] at hA hB hquarter hmin hmax hper
  exact ⟨hcfg, hA, hB, hquarter, hcnt, Nat.one_le_of_lt hcnt, hmin, hmax, hper⟩

end Sys2Proof.Machine

/-! SUPPORT. What a read shows and leaves unchanged (spec/20_memory.md R55), and the statement O39. -/

namespace Sys2Proof.Machine

/-- Every register's value comes from S and the build alone, so a read leaves it as it was (R55). -/
@[simp] theorem regValue_readReg (q r : RegName) (s : State) : regValue q (readReg r s) = regValue q s := by
  cases q <;> rfl

@[simp] theorem newObs_readReg (r : RegName) (s : State) : newObs s (readReg r s) = [.read r (regValue r s)] :=
  newObs_of_append (readReg_trace r s)

/-- Two reads in a row, of the same register or not, show the values both registers had before the first. -/
theorem newObs_readReg_readReg (q r : RegName) (s : State) :
    newObs s (readReg q (readReg r s)) = [.read r (regValue r s), .read q (regValue q s)] :=
  newObs_of_append (by simp)

/-- Settles O39: both reads are `readReg`, and the first leaves the value the second returns as it was. -/
theorem readsHaveNoSideEffects : Obligations.ReadsHaveNoSideEffects := by
  intro r s
  refine ⟨readReg r s, readReg r (readReg r s), regValue r s,
    exec_readEvent r s, exec_readEvent r (readReg r s), rfl, rfl, ⟨rfl, rfl, rfl⟩, ?samples, ?retargets, ?reads⟩
  case samples => simp
  case retargets => simp
  case reads => simp [newObs_readReg_readReg]

end Sys2Proof.Machine

/-! SUPPORT. The decoder and the opcode map on every word (spec/30_encoding.md R76 to R82), and the statement O3. -/

namespace Sys2Proof

open Machine Laws

/-! ### Decode and encode -/

@[simp] theorem decode_encodeRead (r : RegName) : decode (encodeRead r) = .ok (readEvent r) := by
  simp [decode, encodeRead]

@[simp] theorem decode_encodeWrite (r : RegName) (d : Word) : decode (encodeWrite r d) = .ok (writeEvent r d) := by
  simp [decode, encodeWrite]

theorem decode_encode (i : Instr) : decode (encode i) = .ok i := by
  obtain ⟨r, rfl⟩ | ⟨r, d, rfl⟩ | rfl | rfl := instr_cases i
  · rw [encode_readEvent, decode_encodeRead]
  · rw [encode_writeEvent, decode_encodeWrite]
  · simp [decode, encode]
  · simp [decode, encode]

/-- The four kinds of reserved words, in the order of R80. -/
def ReservedWord (w : EventWord) : Prop :=
  (eventKind w ≠ 0x1#4 ∧ eventKind w ≠ 0x2#4 ∧ eventKind w ≠ 0x4#4 ∧ eventKind w ≠ 0x8#4) ∨
  eventReserved w = true ∨
  (eventKind w = 0x1#4 ∧ eventData w ≠ 0#32) ∨
  ((eventKind w = 0x4#4 ∨ eventKind w = 0x8#4) ∧ (eventReg w ≠ 0#3 ∨ eventData w ≠ 0#32))

/-- The decoder on any word: rejected by name where it is reserved, and otherwise the event whose word it is. -/
theorem decode_cases (w : EventWord) :
    (ReservedWord w ∧ decode w = .error (.reservedEvent w)) ∨
    (¬ ReservedWord w ∧ ∃ i, decode w = .ok i ∧ encode i = w) := by
  by_cases hres : eventReserved w = true
  · exact .inl ⟨.inr (.inl hres), by rw [decode, if_pos hres]⟩
  · have hw := eventWord_fields (eq_false_of_ne_true hres)
    unfold decode ReservedWord
    split_ifs with h1 h1d h2 h4 h4z h8 h8z
    · rw [h1, h1d] at hw
      exact .inr ⟨by simp [*], _, rfl, by simp [encodeRead, hw]⟩
    · exact .inl ⟨.inr (.inr (.inl ⟨h1, h1d⟩)), rfl⟩
    · rw [h2] at hw
      exact .inr ⟨by simp [*], _, rfl, by simp [encodeWrite, hw]⟩
    · rw [h4, h4z.1, h4z.2] at hw
      exact .inr ⟨by simp [*], _, rfl, hw⟩
    · exact .inl ⟨.inr (.inr (.inr ⟨.inl h4, not_and_or.mp h4z⟩)), rfl⟩
    · rw [h8, h8z.1, h8z.2] at hw
      exact .inr ⟨by simp [*], _, rfl, hw⟩
    · exact .inl ⟨.inr (.inr (.inr ⟨.inr h8, not_and_or.mp h8z⟩)), rfl⟩
    · exact .inl ⟨.inl ⟨h1, h2, h4, h8⟩, rfl⟩

/-! ### The rows of the opcode map -/

/-- Every event's word selects the row of its mnemonic (R82). -/
theorem opcodeRow_of_event : ∀ i : Instr, OpcodeRow.Statement i
  | .rdFreq => OpcodeRow.rdFreq
  | .rdPeriod => OpcodeRow.rdPeriod
  | .rdPhase => OpcodeRow.rdPhase
  | .rdSample => OpcodeRow.rdSample
  | .rdRetargets => OpcodeRow.rdRetargets
  | .rdConfig => OpcodeRow.rdConfig
  | .rdFmin => OpcodeRow.rdFmin
  | .rdFmax => OpcodeRow.rdFmax
  | .wrFreq d => OpcodeRow.wrFreq d
  | .wrPeriod d => OpcodeRow.wrPeriod d
  | .wrPhase d => OpcodeRow.wrPhase d
  | .wrSample d => OpcodeRow.wrSample d
  | .wrRetargets d => OpcodeRow.wrRetargets d
  | .wrConfig d => OpcodeRow.wrConfig d
  | .wrFmin d => OpcodeRow.wrFmin d
  | .wrFmax d => OpcodeRow.wrFmax d
  | .strobe => OpcodeRow.strobe
  | .reset => OpcodeRow.reset

/-- A row of the map fixes a whole word, that of a read, a strobe or a reset, or all of a write's word but its DATA. -/
theorem opcodeMap_shape : ∀ row ∈ opcodeMap,
    (row.mask = 0xFFFFFFFFFF#40 ∧ ((∃ n, row.matchBits = encodeRead (regOfIndex n)) ∨
      row.matchBits = encode .strobe ∨ row.matchBits = encode .reset)) ∨
    (row.mask = 0xFF00000000#40 ∧ ∃ n, row.matchBits = encodeWrite (regOfIndex n) 0#32) := by
  decide

/-- A word that agrees with a write's above its DATA is the word of the write of that DATA. -/
theorem eq_encodeWrite_of_masked {w : EventWord} {r : RegName} (h : w &&& 0xFF00000000#40 = encodeWrite r 0#32) :
    w = encodeWrite r (eventData w) := by
  apply BitVec.eq_of_getLsbD_eq
  intro k hk
  by_cases hlow : k < 32
  · simp only [encodeWrite, eventWord, eventData, BitVec.getLsbD_append, BitVec.getLsbD_extractLsb', hlow,
      decide_true, Bool.true_and, Nat.zero_add, if_true]
  · have hmask : (0xFF00000000#40).getLsbD k = true := by
      revert k
      decide
    have hbit := congrArg (fun v => BitVec.getLsbD v k) (h.trans (OpcodeRow.encodeWrite_masked r (eventData w)).symm)
    simpa [hmask] using hbit

/-- A word selects some row exactly when it is an event's word (R80). -/
theorem wordWellFormed_iff_encode (w : EventWord) : wordWellFormed w = true ↔ ∃ i, encode i = w := by
  rw [wordWellFormed, List.any_eq_true]
  constructor
  · rintro ⟨row, hrow, hsel⟩
    rw [OpcodeRow.selects, beq_iff_eq] at hsel
    obtain ⟨hmask, hword⟩ | ⟨hmask, n, hword⟩ := opcodeMap_shape row hrow
    · have hw : w = row.matchBits := by
        rw [← hsel, hmask]
        exact (BitVec.and_allOnes (x := w)).symm
      obtain ⟨n, hn⟩ | hn | hn := hword
      · exact ⟨readEvent (regOfIndex n), by rw [encode_readEvent, hw, hn]⟩
      · exact ⟨.strobe, by rw [hw, hn]⟩
      · exact ⟨.reset, by rw [hw, hn]⟩
    · rw [hmask, hword] at hsel
      exact ⟨writeEvent (regOfIndex n) (eventData w), by rw [encode_writeEvent, ← eq_encodeWrite_of_masked hsel]⟩
  · rintro ⟨i, rfl⟩
    obtain ⟨row, hrow, -, hsel⟩ := opcodeRow_of_event i
    exact ⟨row, hrow, hsel⟩

theorem wordWellFormed_iff_decode (w : EventWord) : wordWellFormed w = true ↔ ∃ i, decode w = .ok i := by
  rw [wordWellFormed_iff_encode]
  constructor
  · rintro ⟨i, rfl⟩
    exact ⟨i, decode_encode i⟩
  · rintro ⟨i, hi⟩
    obtain ⟨-, herr⟩ | ⟨-, j, -, hj⟩ := decode_cases w
    · rw [herr] at hi
      cases hi
    · exact ⟨j, hj⟩

theorem not_wordWellFormed_iff_reserved (w : EventWord) : wordWellFormed w = false ↔ ReservedWord w := by
  rw [← Bool.not_eq_true, wordWellFormed_iff_decode]
  obtain ⟨hres, herr⟩ | ⟨hres, i, hi, -⟩ := decode_cases w
  · simp [hres, herr]
  · simp [hres, hi]

theorem decode_of_reserved {w : EventWord} (h : ReservedWord w) : decode w = .error (.reservedEvent w) := by
  obtain ⟨-, herr⟩ | ⟨hres, -⟩ := decode_cases w
  · exact herr
  · exact absurd h hres

/-- Settles O3: the rows are the words of the events, and the decoder names every other word. -/
theorem reservedWordsExactly : Obligations.ReservedWordsExactly := by
  refine ⟨wordWellFormed_iff_decode, not_wordWellFormed_iff_reserved, fun w s hw hv _ => ?_, fun p i _ => ?_⟩
  · have herr := decode_of_reserved ((not_wordWellFormed_iff_reserved w).mp hw)
    exact ⟨herr, by rw [takeWord, if_pos hv, herr]⟩
  · exact (wordWellFormed_iff_encode _).mpr ⟨i, rfl⟩

end Sys2Proof

/-! SUPPORT. The edge of a clock cycle in closed form (spec/30_encoding.md R72 to R75): the state after it, what it
shows and the pulses that follow it; and the statements O44, O45, O46 and O47. -/

namespace Sys2Proof.Machine

/-! ### Live states and runs of events -/

theorem exec_keeps_live {i : Instr} {s t : State} (hs : Live s) (h : exec i s = .next t) : Live t := by
  obtain ⟨hv, ha, hr⟩ := hs
  have hinv : Inv t := exec_keeps_inv ⟨hv, fun _ => hr⟩ h
  have hat : t.afterReset = true := by
    obtain ⟨r, -, rfl⟩ | ⟨r, d, -, -, rfl⟩ | ⟨d, -, -, rfl⟩ | ⟨d, -, -, rfl⟩ | ⟨-, -, rfl⟩ | ⟨-, -, rfl⟩ | ⟨-, rfl⟩ :=
      exec_cases h <;> simp [ha]
  exact ⟨hinv.1, hat, hinv.2 hat⟩

/-- Events one after another: the second part runs on from where the first one ends (R59). -/
theorem runEvents_append {es fs : List Instr} {s t : State} (h : runEvents es s = .next t) :
    runEvents (es ++ fs) s = runEvents fs t := by
  induction es generalizing s with
  | nil =>
    obtain ⟨-, rfl⟩ := runEvents_nil_next h
    rfl
  | cons i es ih =>
    obtain ⟨u, htake, hrest⟩ := runEvents_cons_next h
    rw [List.cons_append, runEvents_cons htake, ih hrest]

/-- A part of a cycle that may hold one event, in a live state: its effect, and the state stays live. -/
theorem runEvents_optional {i : Instr} {s t : State} (hs : Live s) (h : exec i s = .next t) (b : Bool) :
    runEvents (if b then [i] else []) s = .next (if b then t else s) ∧ Live (if b then t else s) := by
  cases b with
  | false => exact ⟨runEvents_nil hs.1, hs⟩
  | true =>
    have ht := exec_keeps_live hs h
    exact ⟨(runEvents_cons ((takeEvent_running hs.1 hs.2.1 i).trans h) []).trans (runEvents_nil ht.1), ht⟩

/-! ### The three parts of an edge without RESET -/

/-- The effect of a STROBE (R120). -/
def strobeEffect (s : State) : State := if completesPeriod s.regs then tick (clearCount s) else countStrobe s

/-- The effect of a write: only a FREQ write that changes the frequency has one (R153, R187 to R193). -/
def writeEffect (r : RegName) (d : Word) (s : State) : State :=
  if r = .freq ∧ changesFreq s.cfg d s.regs = true then retarget (clampFreq s.cfg d) s else s

theorem exec_strobe (s : State) : exec .strobe s = .next (strobeEffect s) := by
  rw [strobeEffect, apply_ite Host.Outcome.next]
  rfl

theorem exec_writeEvent (r : RegName) (d : Word) (s : State) :
    exec (writeEvent r d) s = .next (writeEffect r d s) := by
  by_cases hr : r = .freq
  · subst hr
    simp only [writeEffect, true_and]
    rw [apply_ite Host.Outcome.next]
    rfl
  · rw [exec_writeEvent_readOnly hr, writeEffect, if_neg (fun h => hr h.1)]

/-- The state after the read of a cycle, if it has one. -/
def afterRead (p : PortIn) (s : State) : State :=
  if p.busSel && !p.busWe then readReg (regOfIndex p.busAddr) s else s

/-- The state after the strobe of a cycle, if it has one. -/
def afterStrobe (p : PortIn) (s : State) : State := if p.usStrobe then strobeEffect s else s

/-- The state after the write of a cycle, if it has one. -/
def afterWrite (p : PortIn) (s : State) : State :=
  if p.busSel && p.busWe then writeEffect (regOfIndex p.busAddr) p.busWdata s else s

/-- The state after an edge without RESET (R72). -/
def afterEdge (p : PortIn) (s : State) : State := afterWrite p (afterStrobe p (afterRead p s))

/-- A TICK happens at the edge: its strobe completes a period. -/
def ticksAt (p : PortIn) (s : State) : Bool := p.usStrobe && completesPeriod s.regs

/-- A retarget happens at the edge: its write changes the frequency. -/
def retargetsAt (p : PortIn) (s : State) : Bool :=
  p.busSel && p.busWe && regOfIndex p.busAddr == .freq && changesFreq s.cfg p.busWdata s.regs

/-- The events of a cycle without RESET lead a live state to `afterEdge`. -/
theorem runEvents_eventsOf {p : PortIn} {s : State} (hs : Live s) (hrst : p.rst = false) :
    runEvents (eventsOf p) s = .next (afterEdge p s) ∧ Live (afterEdge p s) := by
  obtain ⟨hread, hsRead⟩ := runEvents_optional hs (exec_readEvent (regOfIndex p.busAddr) s) (p.busSel && !p.busWe)
  obtain ⟨hstrobe, hsStrobe⟩ := runEvents_optional hsRead (exec_strobe _) p.usStrobe
  obtain ⟨hwrite, hsWrite⟩ :=
    runEvents_optional hsStrobe (exec_writeEvent (regOfIndex p.busAddr) p.busWdata _) (p.busSel && p.busWe)
  refine ⟨?_, hsWrite⟩
  rw [eventsOf, if_neg (by rw [hrst]; exact Bool.false_ne_true), List.append_assoc, runEvents_append hread,
    runEvents_append hstrobe, hwrite]
  rfl

/-! ### What an edge shows and what it leaves alone -/

@[simp] theorem afterRead_cfg (p : PortIn) (s : State) : (afterRead p s).cfg = s.cfg := by
  rw [afterRead]; split <;> rfl

@[simp] theorem afterRead_regs (p : PortIn) (s : State) : (afterRead p s).regs = s.regs := by
  rw [afterRead]; split <;> rfl

@[simp] theorem afterStrobe_cfg (p : PortIn) (s : State) : (afterStrobe p s).cfg = s.cfg := by
  rw [afterStrobe, strobeEffect]; split_ifs <;> rfl

@[simp] theorem afterStrobe_freq (p : PortIn) (s : State) : (afterStrobe p s).regs.freq = s.regs.freq := by
  rw [afterStrobe, strobeEffect]; split_ifs <;> rfl

theorem afterWrite_eq (p : PortIn) (s : State) :
    afterWrite p s = if retargetsAt p s then retarget (clampFreq s.cfg p.busWdata) s else s := by
  rw [afterWrite, writeEffect, ← ite_and]
  simp only [retargetsAt, Bool.and_eq_true, beq_iff_eq, and_assoc]

@[simp] theorem afterWrite_cfg (p : PortIn) (s : State) : (afterWrite p s).cfg = s.cfg := by
  rw [afterWrite_eq]; split <;> rfl

@[simp] theorem afterWrite_idxA (p : PortIn) (s : State) : (afterWrite p s).regs.idxA = s.regs.idxA := by
  rw [afterWrite_eq]; split <;> rfl

@[simp] theorem afterWrite_idxB (p : PortIn) (s : State) : (afterWrite p s).regs.idxB = s.regs.idxB := by
  rw [afterWrite_eq]; split <;> rfl

/-- A read beside the strobe does not decide whether a period is completed. -/
@[simp] theorem ticksAt_afterRead (p : PortIn) (s : State) : ticksAt p (afterRead p s) = ticksAt p s := by
  simp [ticksAt]

/-- Neither does what comes before the write decide whether it changes the frequency. -/
@[simp] theorem retargetsAt_afterStrobe_afterRead (p : PortIn) (s : State) :
    retargetsAt p (afterStrobe p (afterRead p s)) = retargetsAt p s := by
  simp [retargetsAt, changesFreq]

theorem afterStrobe_of_tick {p : PortIn} {s : State} (h : ticksAt p s = true) :
    afterStrobe p s = tick (clearCount s) := by
  obtain ⟨hstrobe, hfull⟩ := Bool.and_eq_true_iff.mp h
  rw [afterStrobe, if_pos hstrobe, strobeEffect, if_pos hfull]

theorem afterStrobe_of_no_tick {p : PortIn} {s : State} (h : ticksAt p s = false) :
    afterStrobe p s = countStrobe s ∨ afterStrobe p s = s := by
  cases hstrobe : p.usStrobe with
  | false => exact .inr (by rw [afterStrobe, if_neg (by simp [hstrobe])])
  | true =>
    rw [ticksAt, hstrobe, Bool.true_and] at h
    exact .inl (by rw [afterStrobe, if_pos hstrobe, strobeEffect, if_neg (by simp [h])])

/-- What a TICK shows from a state: the codes at the next indices (R121). -/
def tickObs (s : State) : Obs :=
  .sample (code s.cfg (nextIndex s.cfg s.regs.idxA).toNat) (code s.cfg (nextIndex s.cfg s.regs.idxB).toNat)

/-- What a write that changes the frequency shows: the clamped frequency and its period (R153). -/
def retargetObs (c : Config) (d : Word) : Obs :=
  .retarget (uint32 (clampFreq c d)) (uint32 (periodOf c (clampFreq c d)))

/-- What the read of a cycle shows, if it has one (R55). -/
def readObs (p : PortIn) (s : State) : List Obs :=
  if p.busSel && !p.busWe then [.read (regOfIndex p.busAddr) (regValue (regOfIndex p.busAddr) s)] else []

/-- What an edge without RESET shows, in its order: a read value, a sample, a retarget (R72). -/
def edgeObs (p : PortIn) (s : State) : List Obs :=
  readObs p s ++ (if ticksAt p s then [tickObs s] else []) ++
    (if retargetsAt p s then [retargetObs s.cfg p.busWdata] else [])

theorem afterRead_trace (p : PortIn) (s : State) : (afterRead p s).trace = s.trace ++ readObs p s := by
  rw [afterRead, readObs]
  split <;> simp

theorem afterStrobe_trace (p : PortIn) (s : State) :
    (afterStrobe p s).trace = s.trace ++ if ticksAt p s then [tickObs s] else [] := by
  cases h : ticksAt p s with
  | true => simp [afterStrobe_of_tick h, tickObs]
  | false => obtain hs | hs := afterStrobe_of_no_tick h <;> simp [hs]

theorem afterWrite_trace (p : PortIn) (s : State) :
    (afterWrite p s).trace = s.trace ++ if retargetsAt p s then [retargetObs s.cfg p.busWdata] else [] := by
  rw [afterWrite_eq]
  split <;> simp [retargetObs]

/-- What a TICK shows is not changed by a read before it. -/
@[simp] theorem tickObs_afterRead (p : PortIn) (s : State) : tickObs (afterRead p s) = tickObs s := by
  simp [tickObs]

@[simp] theorem newObs_afterEdge (p : PortIn) (s : State) : newObs s (afterEdge p s) = edgeObs p s := by
  apply newObs_of_append
  rw [afterEdge, afterWrite_trace, afterStrobe_trace, afterRead_trace]
  simp [edgeObs]

@[simp] theorem samplesOf_edgeObs_isEmpty (p : PortIn) (s : State) :
    (samplesOf (edgeObs p s)).isEmpty = !ticksAt p s := by
  rw [edgeObs, readObs]
  split_ifs <;> simp [*, tickObs, retargetObs]

@[simp] theorem retargetsOf_edgeObs_isEmpty (p : PortIn) (s : State) :
    (retargetsOf (edgeObs p s)).isEmpty = !retargetsAt p s := by
  rw [edgeObs, readObs]
  split_ifs <;> simp [*, tickObs, retargetObs]

/-- An edge with neither RESET nor TICK leaves the codes on both outputs as they were (R74). -/
theorem afterEdge_outputs_of_no_tick {p : PortIn} {s : State} (h : ticksAt p s = false) :
    outA (afterEdge p s) = outA s ∧ outB (afterEdge p s) = outB s := by
  obtain hs | hs := afterStrobe_of_no_tick (s := afterRead p s) (by rwa [ticksAt_afterRead]) <;>
    simp [outA, outB, afterEdge, hs]

/-- A TICK and a retarget at one edge: the tick first, then the retarget (R72). -/
theorem afterEdge_of_tick_retarget {p : PortIn} {s : State} (hwe : p.busWe = true) (ht : ticksAt p s = true)
    (hr : retargetsAt p s = true) : afterEdge p s = retarget (clampFreq s.cfg p.busWdata) (tick (clearCount s)) := by
  have hread : afterRead p s = s := by simp [afterRead, hwe]
  rw [afterEdge, afterWrite_eq, retargetsAt_afterStrobe_afterRead, if_pos hr, hread, afterStrobe_of_tick ht]
  rfl

theorem edgeObs_of_tick_retarget {p : PortIn} {s : State} (hwe : p.busWe = true) (ht : ticksAt p s = true)
    (hr : retargetsAt p s = true) : edgeObs p s = [tickObs s, retargetObs s.cfg p.busWdata] := by
  simp [edgeObs, readObs, hwe, ht, hr]

/-! ### The edge of a cycle -/

/-- A cycle without RESET, from a live board. -/
theorem cycle_eq_afterEdge {p : PortIn} {b : Board} (hs : Live b.st) (hrst : p.rst = false) :
    cycle p b = .next ⟨afterEdge p b.st, ticksAt p b.st, retargetsAt p b.st⟩ := by
  rw [cycle, (runEvents_eventsOf hs hrst).1]
  simp

theorem eventsOf_reset {p : PortIn} (hrst : p.rst = true) : eventsOf p = [.reset] := by
  rw [eventsOf, if_pos hrst]

/-- A cycle with RESET runs it alone and leaves both pulses at 0 (R75). -/
theorem cycle_reset {p : PortIn} {b : Board} (hv : b.st.cfg.valid = true) (hrst : p.rst = true) :
    cycle p b = .next ⟨applyReset b.st, false, false⟩ := by
  have hrun : runEvents (eventsOf p) b.st = .next (applyReset b.st) := by
    rw [eventsOf_reset hrst, runEvents_cons (takeEvent_reset hv), runEvents_nil (s := applyReset b.st) hv]
  have hobs : newObs b.st (applyReset b.st) = [] := newObs_of_append (by simp)
  rw [cycle, hrun]
  simp [hobs]

/-- The write of a cycle retargets exactly when it is a FREQ write of another clamped frequency (R153). -/
theorem retargetsAt_iff {s : State} (hv : s.cfg.valid = true) (p : PortIn) :
    retargetsAt p s = true ↔ p.busSel = true ∧ p.busWe = true ∧ regOfIndex p.busAddr = .freq ∧
      clampFreq s.cfg p.busWdata ≠ (s.regs.freq.toNat : Int) := by
  simp only [retargetsAt, Bool.and_eq_true, beq_iff_eq, changesFreq_iff hv, and_assoc]

theorem outputs_of_afterReset {b : Board} (h : b.st.afterReset = true) (p : PortIn) :
    outputs b p = some ⟨busRdata p b.st, outA b.st, outB b.st, b.tickPulse, b.retargetPulse⟩ := by
  rw [outputs, if_pos h]

@[simp] theorem readEvent_inj {q r : RegName} : readEvent q = readEvent r ↔ q = r := by
  refine ⟨fun h => ?_, congrArg readEvent⟩
  simpa [encodeRead] using congrArg (fun i => regOfIndex (eventReg (encode i))) h

/-- An event of another KIND is no read (R77). -/
theorem readEvent_ne_of_kind {i : Instr} (h : eventKind (encode i) ≠ 0x1#4) (r : RegName) : readEvent r ≠ i := by
  rintro rfl
  exact h (by simp [encodeRead])

@[simp] theorem readEvent_ne_writeEvent (r q : RegName) (d : Word) : readEvent r ≠ writeEvent q d :=
  readEvent_ne_of_kind (by simp [encodeWrite]) r

@[simp] theorem readEvent_ne_strobe (r : RegName) : readEvent r ≠ .strobe := readEvent_ne_of_kind (by decide) r

@[simp] theorem readEvent_ne_reset (r : RegName) : readEvent r ≠ .reset := readEvent_ne_of_kind (by decide) r

/-- The read a cycle's ports ask for is the read among its events (R72). -/
theorem cycleRead_eq_some_iff (p : PortIn) (r : RegName) : cycleRead p = some r ↔ readEvent r ∈ eventsOf p := by
  cases hrst : p.rst with
  | true => simp [cycleRead, eventsOf, hrst]
  | false => simp [cycleRead, eventsOf, hrst, eq_comm (a := r)]

theorem busRdata_of_read {p : PortIn} {r : RegName} (h : cycleRead p = some r) (s : State) :
    busRdata p s = regValue r s := by
  rw [busRdata, h]

theorem busRdata_of_no_read {p : PortIn} (h : cycleRead p = none) (s : State) : busRdata p s = 0#32 := by
  rw [busRdata, h]

/-! ### The statements -/

/-- Settles O44: `eventsOf` gives the order, and where a tick and a retarget meet the edge is one after the other. -/
theorem cycleTakesEventsInOrder : Obligations.CycleTakesEventsInOrder := by
  refine ⟨fun p => eventsOf_reset, fun p hrst => ⟨_, _, _, ?_, rfl, rfl, rfl⟩, fun p b b' h => ?_, ?_⟩
  · simp [eventsOf, hrst]
  · rw [cycle] at h
    split at h
    · cases h
      assumption
    · cases h
    · cases h
  · intro p b hs hrst hstrobe hsel hwe hreg hfull hne
    have ht : ticksAt p b.st = true := by rw [ticksAt, hstrobe, hfull]; rfl
    have hr : retargetsAt p b.st = true := (retargetsAt_iff hs.1 p).mpr ⟨hsel, hwe, hreg, hne⟩
    have hobs := (newObs_afterEdge p b.st).trans (edgeObs_of_tick_retarget hwe ht hr)
    refine ⟨_, _, _, _, _, cycle_eq_afterEdge hs hrst, hobs, ?idxB, ?tcnt, ht, hr⟩
    case idxB => simp [afterEdge_of_tick_retarget hwe ht hr, nextIndex_toNat hs.1]
    case tcnt => simp [afterEdge_of_tick_retarget hwe ht hr]

/-- Settles O45: the read of a cycle is one of its events, and `regValue` is what it returns. -/
theorem busReadDataFromBeforeEdge : Obligations.BusReadDataFromBeforeEdge := by
  intro p b ha
  refine ⟨_, outputs_of_afterReset ha p, fun r hr => ⟨(cycleRead_eq_some_iff p r).mp hr, ?_⟩,
    fun hnone => ⟨busRdata_of_no_read hnone b.st, fun r hr => ?_⟩⟩
  · rw [busRdata_of_read hr]
    exact ⟨readReg r b.st, exec_readEvent r b.st, rfl, ⟨rfl, rfl, rfl⟩, rfl⟩
  · rw [← cycleRead_eq_some_iff, hnone] at hr
    cases hr

/-- Settles O46: an edge that shows no sample has no tick, and then both codes stay. -/
theorem dacFollowsIndices : Obligations.DacFollowsIndices := by
  intro p b hs
  refine ⟨_, outputs_of_afterReset hs.2.1 p, rfl, rfl, ?_⟩
  cases hrst : p.rst with
  | true => exact ⟨_, cycle_reset hs.1 hrst, fun h => by cases h⟩
  | false =>
    refine ⟨_, cycle_eq_afterEdge hs hrst, fun _ hnone p' o' ho' => ?_⟩
    have hno : ticksAt p b.st = false := by
      have := samplesOf_edgeObs_isEmpty p b.st
      rw [newObs_afterEdge] at hnone
      simpa [hnone] using this
    rw [outputs_of_afterReset (runEvents_eventsOf hs hrst).2.2.1] at ho'
    cases ho'
    exact afterEdge_outputs_of_no_tick hno

/-- Settles O47: the pulses of an edge without RESET are `ticksAt` and `retargetsAt`, and RESET leaves neither. -/
theorem pulsesFollowTheirEvents : Obligations.PulsesFollowTheirEvents := by
  intro p b hs
  cases hrst : p.rst with
  | true =>
    have hlive : Live (applyReset b.st) := exec_keeps_live (i := .reset) hs rfl
    exact ⟨_, cycle_reset hs.1 hrst, hlive, by simp, by simp, fun _ => ⟨rfl, rfl⟩⟩
  | false =>
    refine ⟨_, cycle_eq_afterEdge hs hrst, (runEvents_eventsOf hs hrst).2, ?tick, ?retarget, fun h => by cases h⟩
    case tick => simp [ticksAt]
    case retarget => simpa using retargetsAt_iff hs.1 p

end Sys2Proof.Machine

/-! SUPPORT. The sine table as a function of the angle: a code is the rounded value of the sine at its index, and indices
that agree modulo N have one sine (spec/40_sine_table.md R101); and the statements O48, O49, O50, O51, O52 and O54. -/

namespace Sys2Proof.Machine

/-! ### The angle of an index -/

/-- `2·π·k / N`, the angle of R101 at any integer index, so that mirrored indices have one too. -/
noncomputable def entryAngle (c : Config) (k : ℤ) : ℝ := 2 * Real.pi * k / c.N

theorem entryAngle_natCast (c : Config) (i : ℕ) : entryAngle c i = 2 * Real.pi * i / c.N := by
  rw [entryAngle, Int.cast_natCast]

theorem entryAngle_add (c : Config) (j k : ℤ) : entryAngle c (j + k) = entryAngle c j + entryAngle c k := by
  simp only [entryAngle, Int.cast_add]
  ring

theorem entryAngle_neg (c : Config) (k : ℤ) : entryAngle c (-k) = -entryAngle c k := by
  simp only [entryAngle, Int.cast_neg]
  ring

/-- A whole number of periods is a whole number of turns. -/
theorem entryAngle_N_mul {c : Config} (hN : 0 < c.N) (n : ℤ) : entryAngle c (c.N * n) = n * (2 * Real.pi) := by
  have : (c.N : ℝ) ≠ 0 := by exact_mod_cast hN.ne'
  simp only [entryAngle, Int.cast_mul, Int.cast_natCast]
  field_simp

theorem entryAngle_Q {c : Config} (h : c.valid = true) : entryAngle c c.Q = Real.pi / 2 := by
  have hQ : (c.Q : ℝ) ≠ 0 := by exact_mod_cast (c.Q_pos h).ne'
  have hN : (c.N : ℝ) = 4 * c.Q := by exact_mod_cast (c.four_mul_Q h).symm
  rw [entryAngle_natCast, hN]
  field_simp
  norm_num

theorem entryAngle_half {c : Config} (h : c.valid = true) : entryAngle c (c.N / 2 : ℕ) = Real.pi := by
  have hhalf : ((c.N / 2 : ℕ) : ℤ) = c.Q + c.Q := by
    have := c.four_mul_Q h
    omega
  rw [hhalf, entryAngle_add, entryAngle_Q h, add_halves]

/-- The sine at an index depends on the index modulo N alone. -/
theorem sin_entryAngle_congr {c : Config} (hN : 0 < c.N) {j k : ℤ} (hjk : j ≡ k [ZMOD c.N]) :
    Real.sin (entryAngle c j) = Real.sin (entryAngle c k) := by
  obtain ⟨n, hn⟩ := hjk.dvd
  rw [← add_sub_cancel j k, hn, entryAngle_add, entryAngle_N_mul hN, Real.sin_add_int_mul_two_pi]

/-- In one period the sine is 0 at 0 and at half the period only. -/
theorem index_of_sin_entryAngle_eq_zero {c : Config} {i : ℕ} (hi : i < c.N)
    (hs : Real.sin (entryAngle c i) = 0) : i = 0 ∨ i = c.N / 2 := by
  have hN : (c.N : ℝ) ≠ 0 := by exact_mod_cast (Nat.zero_lt_of_lt hi).ne'
  obtain ⟨n, hn⟩ := Real.sin_eq_zero_iff.mp hs
  have hreal : (n : ℝ) * c.N = 2 * i := by
    rw [entryAngle_natCast, eq_div_iff hN] at hn
    exact mul_left_cancel₀ Real.pi_ne_zero (by linarith)
  have hmul : n * (c.N : ℤ) = 2 * i := by exact_mod_cast hreal
  have hn0 : 0 ≤ n := by nlinarith
  have hn2 : n < 2 := by nlinarith
  obtain rfl | rfl : n = 0 ∨ n = 1 := by omega
  · omega
  · omega

/-! ### The code of a sine value -/

/-- R101 as a function of the sine: `(1 + x) · M / 2`, rounded half up. -/
noncomputable def roundedCode (c : Config) (x : ℝ) : ℤ := ⌊(1 + x) * c.M / 2 + 1 / 2⌋

/-- R101 at any index, by any integer that agrees with it modulo N. -/
theorem code_eq_roundedCode {c : Config} (hN : 0 < c.N) (ht : TableFormula c) {i : ℕ} {k : ℤ}
    (hik : (i : ℤ) ≡ k [ZMOD c.N]) : (code c i : ℤ) = roundedCode c (Real.sin (entryAngle c k)) := by
  have hmod : ((i % c.N : ℕ) : ℤ) ≡ k [ZMOD c.N] := by
    rw [Int.natCast_mod]
    exact (Int.mod_modEq _ _).trans hik
  rw [← code_mod, ht _ (Nat.mod_lt i hN), exactValue, ← entryAngle_natCast, sin_entryAngle_congr hN hmod, roundedCode]

theorem roundedCode_one (c : Config) : roundedCode c 1 = c.M :=
  (floor_half_eq (by push_cast; linarith) (by push_cast; linarith)).symm

theorem roundedCode_neg_one (c : Config) : roundedCode c (-1) = 0 :=
  (floor_half_eq (by norm_num) (by norm_num)).symm

/-- The midpoint `M / 2` is a tie, and rounds up to `2^(R-1)` (R104, R107). -/
theorem roundedCode_zero {c : Config} (h : c.valid = true) : roundedCode c 0 = (2 ^ (c.R - 1) : ℕ) := by
  have hM : (c.M : ℝ) + 1 = 2 * (2 ^ (c.R - 1) : ℕ) := by exact_mod_cast M_add_one h
  exact (floor_half_eq (by push_cast at *; linarith) (by push_cast at *; linarith)).symm

theorem roundedCode_mono (c : Config) : Monotone (roundedCode c) := by
  intro x y hxy
  unfold roundedCode
  gcongr

/-- Away from a tie, the codes of opposite sines are opposite (R105): rounding the second up is rounding the first
down. -/
theorem roundedCode_add_neg {c : Config} {x : ℝ} (hx : ¬ ∃ n : ℤ, (1 + x) * c.M / 2 + 1 / 2 = n) :
    roundedCode c x + roundedCode c (-x) = c.M := by
  have hopp : (1 + -x) * c.M / 2 + 1 / 2 = ((c.M + 1 : ℤ) : ℝ) + -((1 + x) * c.M / 2 + 1 / 2) := by
    push_cast
    ring
  have hceil := Int.ceil_eq_floor_add_one_iff_notMem ((1 + x) * c.M / 2 + 1 / 2) |>.mpr
    fun ⟨n, hn⟩ => hx ⟨n, hn.symm⟩
  rw [roundedCode, roundedCode, hopp, Int.floor_intCast_add, Int.floor_neg, hceil]
  ring

/-- Twice a sine of the table is an algebraic integer, so where the sine is rational it is half an integer (Niven). -/
theorem two_mul_sin_entryAngle_eq_int {c : Config} {k : ℤ} {q : ℚ} (hq : Real.sin (entryAngle c k) = q) :
    ∃ m : ℤ, 2 * Real.sin (entryAngle c k) = m := by
  have hangle : entryAngle c k = (2 * k / c.N : ℚ) * Real.pi := by
    rw [entryAngle]
    push_cast
    ring
  have hint := Real.isIntegral_two_mul_sin_rat_mul_pi (2 * k / c.N)
  rw [← hangle] at hint
  exact hint.exists_int_iff_exists_rat.mp ⟨2 * q, by rw [hq]; push_cast; rfl⟩

/-- A tie happens at a zero of the sine only (R107): it makes `m / 2 · M` even for the integer `m` that is twice the
sine, and `M` is odd, so 4 divides `m`, which lies in `[-2, 2]`. -/
theorem sin_eq_zero_of_tie {c : Config} (h : c.valid = true) {k n : ℤ}
    (hn : (1 + Real.sin (entryAngle c k)) * c.M / 2 + 1 / 2 = n) : Real.sin (entryAngle c k) = 0 := by
  have hodd := M_add_one h
  have hM : (c.M : ℝ) ≠ 0 := by
    have := Nat.two_pow_pos (c.R - 1)
    exact_mod_cast (by omega : c.M ≠ 0)
  have hsM : Real.sin (entryAngle c k) * c.M = 2 * n - 1 - c.M := by linarith
  have hrat : Real.sin (entryAngle c k) = ((2 * n - 1 - c.M) / c.M : ℚ) := by
    rw [eq_div_of_mul_eq hM hsM]
    push_cast
    rfl
  obtain ⟨m, hm⟩ := two_mul_sin_entryAngle_eq_int hrat
  have hmM : m * (c.M : ℤ) = 2 * (2 * n - 1 - c.M) := by
    have : (m : ℝ) * c.M = 2 * (2 * n - 1 - c.M) := by rw [← hm, ← hsM, mul_assoc]
    exact_mod_cast this
  have hlo : -2 ≤ m := by
    have := Real.neg_one_le_sin (entryAngle c k)
    exact_mod_cast (by linarith : (-2 : ℝ) ≤ m)
  have hhi : m ≤ 2 := by
    have := Real.sin_le_one (entryAngle c k)
    exact_mod_cast (by linarith : (m : ℝ) ≤ 2)
  have hm0 : m = 0 := by
    interval_cases m <;> omega
  simpa [hm0] using hm

/-! ### The entry opposite an index -/

/-- Opposite indices have opposite sines (R105). -/
theorem code_opposite {c : Config} (h : c.valid = true) (ht : TableFormula c) {i : ℕ} (hi : i < c.N) :
    (code c ((c.N - i) % c.N) : ℤ) = roundedCode c (-Real.sin (entryAngle c i)) := by
  have hopp : ((c.N - i : ℕ) : ℤ) ≡ -(i : ℤ) [ZMOD c.N] := by
    rw [Nat.cast_sub hi.le, Int.modEq_iff_dvd]
    exact ⟨-1, by ring⟩
  rw [code_mod, code_eq_roundedCode (c.N_pos h) ht hopp, entryAngle_neg, Real.sin_neg]

/-- At half the period the sine is 0 again, and the entry is the midpoint (R104). -/
theorem code_half {c : Config} (h : c.valid = true) (ht : TableFormula c) : code c (c.N / 2) = 2 ^ (c.R - 1) := by
  have hcode := code_eq_roundedCode (c.N_pos h) ht (Int.ModEq.refl ((c.N / 2 : ℕ) : ℤ))
  rw [entryAngle_half h, Real.sin_pi, roundedCode_zero h] at hcode
  exact_mod_cast hcode

/-- Both ties of R107 are their own opposites. -/
theorem opposite_of_tie {c : Config} (h : c.valid = true) {i : ℕ} (hi : i = 0 ∨ i = c.N / 2) :
    (c.N - i) % c.N = i := by
  have hQ := c.four_mul_Q h
  have hpos := c.Q_pos h
  obtain rfl | rfl := hi
  · exact Nat.mod_self _
  · rw [Nat.mod_eq_of_lt (by omega)]
    omega

/-! ### The statements -/

/-- Settles O48: no sine exceeds 1, whose code is `M`. -/
theorem tableEntriesInRange : Obligations.TableEntriesInRange := by
  intro c i ht hi
  have hle := roundedCode_mono c (Real.sin_le_one (entryAngle c i))
  rw [← code_eq_roundedCode (Nat.zero_lt_of_lt hi) ht (Int.ModEq.refl _), roundedCode_one] at hle
  exact_mod_cast hle

/-- Settles O49: a quarter is `code_Q`, and at three quarters, a quarter after `π`, the sine is -1. -/
theorem tableReachesExtremes : Obligations.TableReachesExtremes := by
  intro c h ht
  have hidx : ((3 * c.Q : ℕ) : ℤ) = c.Q + (c.N / 2 : ℕ) := by
    have := c.four_mul_Q h
    omega
  have hcode := code_eq_roundedCode (c.N_pos h) ht (Int.ModEq.refl ((3 * c.Q : ℕ) : ℤ))
  rw [hidx, entryAngle_add, entryAngle_half h, Real.sin_add_pi, entryAngle_Q h, Real.sin_pi_div_two,
    roundedCode_neg_one] at hcode
  exact ⟨code_Q h ht, by exact_mod_cast hcode⟩

/-- Settles O50: the sine is 0 at both entries. -/
theorem tableMidpoints : Obligations.TableMidpoints :=
  fun _ h ht => ⟨code_zero h ht, code_half h ht⟩

/-- Settles O51: opposite sines have opposite codes where the sine is no tie; both ties are their own opposites. -/
theorem tableOddSymmetry : Obligations.TableOddSymmetry := by
  intro c i h ht hi
  refine ⟨fun hne => ?off, fun hmid => ?ties⟩
  case off =>
    have hnotie : ¬ ∃ n : ℤ, (1 + Real.sin (entryAngle c i)) * c.M / 2 + 1 / 2 = n := fun ⟨n, hn⟩ => by
      have := index_of_sin_entryAngle_eq_zero hi (sin_eq_zero_of_tie h hn)
      omega
    have hsum := roundedCode_add_neg hnotie
    rw [← code_opposite h ht hi, ← code_eq_roundedCode (c.N_pos h) ht (Int.ModEq.refl _)] at hsum
    exact_mod_cast hsum
  case ties =>
    have hcode : code c i = 2 ^ (c.R - 1) := by
      obtain rfl | rfl := hmid
      · exact code_zero h ht
      · exact code_half h ht
    rw [opposite_of_tie h hmid, M_add_one h, hcode]
    exact ⟨(two_mul _).symm, rfl, rfl⟩

/-- Settles O52: the reflected index has the angle `π - θ`, and the same sine. -/
theorem tableEvenSymmetry : Obligations.TableEvenSymmetry := by
  intro c i h ht _
  have hN := c.N_pos h
  have hrefl : (((((c.N / 2 : ℕ) : ℤ) - i) % c.N).toNat : ℤ) ≡ (c.N / 2 : ℕ) + -(i : ℤ) [ZMOD c.N] := by
    rw [Int.toNat_of_nonneg (Int.emod_nonneg _ (by omega))]
    exact Int.mod_modEq _ _
  have hcode := code_eq_roundedCode hN ht hrefl
  rw [entryAngle_add, entryAngle_half h, entryAngle_neg, ← sub_eq_add_neg, Real.sin_pi_sub,
    ← code_eq_roundedCode hN ht (Int.ModEq.refl _)] at hcode
  exact_mod_cast hcode.symm

/-- Settles O54: a quarter period ahead the sine is the cosine. -/
theorem channelAReadsCosineTable : Obligations.ChannelAReadsCosineTable := by
  intro c i h ht _
  rw [code_mod, code_eq_roundedCode (c.N_pos h) ht (Int.ModEq.refl _), Nat.cast_add, entryAngle_add, entryAngle_Q h,
    Real.sin_add_pi_div_two, entryAngle_natCast, roundedCode]

end Sys2Proof.Machine

/-! SUPPORT. The sampler over events and runs (spec/41_sampler.md R120 to R129): what one STROBE does, the samples of any
run without RESET, the count of a quiet run; and the statements O16 to O19 and O22 to O24. -/

namespace Sys2Proof.Machine

/-! ### One event -/

theorem exec_strobe_of_completes {s : State} (hc : completesPeriod s.regs = true) :
    exec .strobe s = .next (tick (clearCount s)) := by
  rw [exec_strobe, strobeEffect, if_pos hc]

theorem exec_strobe_of_not_completes {s : State} (hc : completesPeriod s.regs = false) :
    exec .strobe s = .next (countStrobe s) := by
  rw [exec_strobe, strobeEffect, if_neg (by simp [hc])]

theorem completesPeriod_iff (r : Regs) : completesPeriod r = true ↔ r.tcnt.toNat + 1 = r.period.toNat := beq_iff_eq

theorem completesPeriod_eq_false_iff (r : Regs) :
    completesPeriod r = false ↔ r.tcnt.toNat + 1 ≠ r.period.toNat := beq_eq_false_iff_ne

/-- A counted strobe below the period raises the count, which cannot wrap (R120, R122). -/
theorem countStrobe_tcnt_toNat {s : State} (h : s.regs.tcnt.toNat + 1 < s.regs.period.toNat) :
    (countStrobe s).regs.tcnt.toNat = s.regs.tcnt.toNat + 1 := by
  have hp := s.regs.period.isLt
  simp only [countStrobe_regs, BitVec.toNat_ofNat]
  omega

/-- Settles O16: the two branches of `execStrobe`. -/
theorem strobeCountsOrTicks : Obligations.StrobeCountsOrTicks := by
  refine ⟨fun s hv hc => ?ticks, fun s hlt => ?counts⟩
  case ticks =>
    refine ⟨_, exec_strobe_of_completes ((completesPeriod_iff _).mpr hc), rfl, ?_, ?_, rfl, rfl, rfl, rfl, rfl, rfl, rfl⟩
    · exact nextIndex_toNat hv _
    · exact nextIndex_toNat hv _
  case counts =>
    have hc : completesPeriod s.regs = false := (completesPeriod_eq_false_iff _).mpr hlt.ne
    exact ⟨_, exec_strobe_of_not_completes hc, countStrobe_tcnt_toNat hlt, rfl, rfl, rfl, rfl, rfl, rfl, rfl, rfl, rfl⟩

/-- An event is the STROBE that ticks, or it shows no sample and, unless it is RESET, leaves both indices (R125). -/
theorem exec_ticks_or_no_sample {i : Instr} {s t : State} (h : exec i s = .next t) :
    (i = .strobe ∧ completesPeriod s.regs = true ∧ t = tick (clearCount s)) ∨
    (¬ (i = .strobe ∧ completesPeriod s.regs = true) ∧ t.trace = s.trace ++ newObs s t ∧ samplesOf (newObs s t) = [] ∧
      (i ≠ .reset → t.regs.idxA = s.regs.idxA ∧ t.regs.idxB = s.regs.idxB)) := by
  obtain ⟨r, rfl, rfl⟩ | ⟨r, d, rfl, -, rfl⟩ | ⟨d, rfl, -, rfl⟩ | ⟨d, rfl, -, rfl⟩ | htick | ⟨rfl, hc, rfl⟩ |
    ⟨rfl, rfl⟩ := exec_cases h
  case inr.inr.inr.inr.inl => exact .inl htick
  all_goals refine .inr ?_
  · simp
  · cases r <;> simp [writeEvent, newObs]
  · simp [newObs]
  · simp [newObs]
  · simp [newObs, hc]
  · simp [newObs]

/-- Settles O17: only the ticking STROBE shows a sample, and it shows one. -/
theorem atMostOneTickPerEvent : Obligations.AtMostOneTickPerEvent := by
  intro i s t hv h
  obtain ⟨rfl, -, rfl⟩ | ⟨-, -, hnone, hidx⟩ := exec_ticks_or_no_sample h
  · simp [newObs, nextIndex_toNat hv]
  · simpa [hnone] using hidx

/-- Settles O18: both indices of O16's tick move by one. -/
theorem tickKeepsQuadrature : Obligations.TickKeepsQuadrature := by
  intro s hv hc hquarter
  obtain ⟨t, ht, -, hA, hB, -, -, -, htrace, -⟩ := strobeCountsOrTicks.1 s hv hc
  have hkept : t.regs.idxA.toNat = (t.regs.idxB.toNat + s.cfg.Q) % s.cfg.N := by
    rw [hA, hB, hquarter, Nat.mod_add_mod, Nat.mod_add_mod, Nat.add_right_comm]
  exact ⟨t, ht, hkept, by simp [newObs_of_append htrace, hkept]⟩

/-! ### The samples of a run without RESET -/

theorem code_congr {c : Config} {i j : Nat} (h : i ≡ j [MOD c.N]) : code c i = code c j := by
  rw [← code_mod, h, code_mod]

/-- The codes of both channels `k` index steps after a state. -/
def pairAfter (s : State) (k : Nat) : Nat × Nat :=
  (code s.cfg (s.regs.idxA.toNat + k), code s.cfg (s.regs.idxB.toNat + k))

/-- Between the two states there were `n` ticks and no RESET: the samples are the next `n` pairs, and both indices have
moved by `n` modulo `N`. -/
structure Ticked (s t : State) (n : Nat) : Prop where
  cfg : t.cfg = s.cfg
  trace : t.trace = s.trace ++ newObs s t
  samples : samplesOf (newObs s t) = (List.range n).map (fun k => pairAfter s (k + 1))
  idxA : t.regs.idxA.toNat ≡ s.regs.idxA.toNat + n [MOD s.cfg.N]
  idxB : t.regs.idxB.toNat ≡ s.regs.idxB.toNat + n [MOD s.cfg.N]

namespace Ticked

variable {s t u : State} {n m : Nat}

theorem refl (s : State) : Ticked s s 0 := ⟨rfl, by simp [newObs], by simp [newObs], rfl, rfl⟩

theorem pairAfter_eq (h : Ticked s t n) (k : Nat) : pairAfter t k = pairAfter s (n + k) := by
  rw [pairAfter, pairAfter, h.cfg, code_congr (h.idxA.add_right k), code_congr (h.idxB.add_right k), Nat.add_assoc,
    Nat.add_assoc]

theorem trans (h : Ticked s t n) (h' : Ticked t u m) : Ticked s u (n + m) := by
  have htrace : u.trace = s.trace ++ (newObs s t ++ newObs t u) := by
    rw [h'.trace, ← List.append_assoc, ← h.trace]
  have hA := h'.idxA
  have hB := h'.idxB
  rw [h.cfg] at hA hB
  refine ⟨h'.cfg.trans h.cfg, ?trace, ?samples, ?idxA, ?idxB⟩
  case trace => rw [newObs_of_append htrace, htrace]
  case samples =>
    rw [newObs_of_append htrace, samplesOf_append, h.samples, h'.samples, List.range_add, List.map_append, List.map_map]
    simp only [h.pairAfter_eq, Function.comp_def, Nat.add_assoc]
  case idxA => simpa only [Nat.add_assoc] using hA.trans (h.idxA.add_right m)
  case idxB => simpa only [Nat.add_assoc] using hB.trans (h.idxB.add_right m)

theorem length_samples (h : Ticked s t n) : (samplesOf (newObs s t)).length = n := by
  rw [h.samples, List.length_map, List.length_range]

theorem sample_eq (h : Ticked s t n) {k : Nat} {ab : Nat × Nat} (hk : (samplesOf (newObs s t))[k]? = some ab) :
    ab = pairAfter s (k + 1) := by
  rw [h.samples, List.getElem?_map, Option.map_eq_some_iff] at hk
  obtain ⟨j, hj, rfl⟩ := hk
  obtain ⟨-, rfl⟩ := List.getElem?_eq_some_iff.mp hj
  rw [List.getElem_range]

end Ticked

theorem ticked_tick {s : State} (hv : s.cfg.valid = true) : Ticked s (tick (clearCount s)) 1 := by
  refine ⟨rfl, by simp [newObs], ?samples, ?idxA, ?idxB⟩
  case samples => simp [newObs, pairAfter, nextIndex_toNat hv]
  case idxA => simpa [nextIndex_toNat hv] using Nat.mod_modEq _ _
  case idxB => simpa [nextIndex_toNat hv] using Nat.mod_modEq _ _

/-- An event other than RESET ticks once if it is the STROBE that completes a period, and otherwise not at all. -/
theorem exec_ticked {i : Instr} {s t : State} (hv : s.cfg.valid = true) (hi : i ≠ .reset) (h : exec i s = .next t) :
    Ticked s t (if i = .strobe ∧ completesPeriod s.regs = true then 1 else 0) := by
  obtain ⟨hstrobe, hc, rfl⟩ | ⟨hno, htrace, hnone, hidx⟩ := exec_ticks_or_no_sample h
  · rw [if_pos ⟨hstrobe, hc⟩]
    exact ticked_tick hv
  · obtain ⟨hA, hB⟩ := hidx hi
    rw [if_neg hno]
    exact ⟨exec_cfg h, htrace, hnone, by rw [hA]; rfl, by rw [hB]; rfl⟩

/-- Every completed run without RESET shows the pairs that follow its start, retargets or not (R128). -/
theorem runEvents_ticked {es : List Instr} {s t : State} (hes : Instr.reset ∉ es) (h : runEvents es s = .next t) :
    ∃ n, Ticked s t n := by
  induction es generalizing s with
  | nil =>
    obtain ⟨-, rfl⟩ := runEvents_nil_next h
    exact ⟨0, .refl t⟩
  | cons i es ih =>
    have hi : i ≠ .reset := (List.ne_of_not_mem_cons hes).symm
    obtain ⟨u, htake, hrest⟩ := runEvents_cons_next h
    obtain ⟨hv, -, hexec⟩ := takeEvent_next htake
    obtain ⟨n, hn⟩ := ih (List.not_mem_of_not_mem_cons hes) hrest
    exact ⟨_, (exec_ticked hv hi hexec).trans hn⟩

/-- Settles O22: from the indices `Q` and 0 of a RESET the pairs follow, and they repeat with the table. -/
theorem sampleSequenceAfterReset : Obligations.SampleSequenceAfterReset := by
  intro s t es hes h
  obtain ⟨u, htake, hrest⟩ := runEvents_cons_next h
  obtain ⟨hv, -, hexec⟩ := takeEvent_next htake
  obtain rfl : applyReset s = u := Host.Outcome.next.inj hexec
  obtain ⟨n, hn⟩ := runEvents_ticked hes hrest
  have hobs : newObs s t = newObs (applyReset s) t := rfl
  rw [hobs]
  refine ⟨fun k ab hk => ?pair, fun k ab cd hk hkN => ?repeats⟩
  case pair =>
    rw [hn.sample_eq hk, pairAfter, applyReset_regs, (resetRegs_toNat hv).1]
    simp
  case repeats =>
    have hshift (i : Nat) : i + (k + 1) ≡ i + (k + s.cfg.N + 1) [MOD s.cfg.N] := by
      rw [Nat.add_right_comm k, ← Nat.add_assoc i (k + 1)]
      exact Nat.add_modEq_right.symm
    rw [hn.sample_eq hk, hn.sample_eq hkN, pairAfter, pairAfter]
    exact Prod.ext (code_congr (hshift _)) (code_congr (hshift _))

/-- Settles O23: channel A's index is `Q` ahead at the start, and a tick moves both by one. -/
theorem channelALeadsByQuarter : Obligations.ChannelALeadsByQuarter := by
  intro s t es k ab cd hs hes h hk hkQ
  obtain ⟨-, -, -, -, hquarter, -⟩ := hs
  obtain ⟨n, hn⟩ := runEvents_ticked hes h
  rw [hn.sample_eq hk, hn.sample_eq hkQ, pairAfter, pairAfter]
  apply code_congr
  calc s.regs.idxA.toNat + (k + 1)
      ≡ (s.regs.idxB.toNat + s.cfg.Q) + (k + 1) [MOD s.cfg.N] := by
        rw [hquarter]
        exact (Nat.mod_modEq _ _).add_right _
    _ = s.regs.idxB.toNat + (k + s.cfg.Q + 1) := by omega

/-! ### The count of a quiet run -/

/-- No event fails (R210). -/
theorem exec_completes (i : Instr) (s : State) : ∃ t, exec i s = .next t := by
  obtain ⟨r, rfl⟩ | ⟨r, d, rfl⟩ | rfl | rfl := instr_cases i
  · exact ⟨_, exec_readEvent r s⟩
  · exact ⟨_, exec_writeEvent r d s⟩
  · exact ⟨_, exec_strobe s⟩
  · exact ⟨_, rfl⟩

/-- Between the two states `k` strobes came and neither RESET nor retarget: one tick came every `period` strobes, counted
from `tcnt`, and the count holds the rest (R123). -/
structure Counted (s t : State) (k : Nat) : Prop where
  ticked : Ticked s t ((s.regs.tcnt.toNat + k) / s.regs.period.toNat)
  tcnt : t.regs.tcnt.toNat = (s.regs.tcnt.toNat + k) % s.regs.period.toNat
  freq : t.regs.freq = s.regs.freq
  period : t.regs.period = s.regs.period
  retargets : t.regs.retargets = s.regs.retargets

/-- Where no tick came and S is unchanged, no strobe was counted. -/
theorem Counted.of_regs_eq {s t : State} (hs : Live s) (hticked : Ticked s t 0) (hregs : t.regs = s.regs) :
    Counted s t 0 := by
  obtain ⟨-, -, -, -, -, -, -, -, hcnt⟩ := hs
  refine ⟨?_, ?_, by rw [hregs], by rw [hregs], by rw [hregs]⟩
  · rwa [Nat.add_zero, Nat.div_eq_of_lt hcnt]
  · rw [hregs, Nat.add_zero, Nat.mod_eq_of_lt hcnt]

/-- A division carried on from its quotient and rest. -/
theorem add_div_eq_div_add_mod (a b p : Nat) : (a + b) / p = a / p + (a % p + b) / p := by
  obtain rfl | hp := p.eq_zero_or_pos
  · simp
  · rw [← Nat.mul_add_div hp, ← Nat.add_assoc, Nat.div_add_mod]

theorem Counted.trans {s t u : State} {k l : Nat} (h : Counted s t k) (h' : Counted t u l) : Counted s u (k + l) := by
  obtain ⟨htick, hcnt, hfreq, hper, hret⟩ := h'
  rw [h.period, h.tcnt] at htick hcnt
  refine ⟨?ticked, ?tcnt, hfreq.trans h.freq, hper.trans h.period, hret.trans h.retargets⟩
  case ticked =>
    rw [← Nat.add_assoc, add_div_eq_div_add_mod]
    exact h.ticked.trans htick
  case tcnt => rw [hcnt, Nat.mod_add_mod, Nat.add_assoc]

/-- A quiet event other than a STROBE writes no field of S (R32). -/
theorem exec_quiet_regs {i : Instr} {s t : State} (hq : quiet s.cfg s.regs.freq i = true) (hi : i ≠ .strobe)
    (h : exec i s = .next t) : t.regs = s.regs := by
  obtain ⟨r, -, rfl⟩ | ⟨r, d, -, -, rfl⟩ | ⟨d, rfl, hc, -⟩ | ⟨d, -, -, rfl⟩ | ⟨rfl, -⟩ | ⟨rfl, -⟩ | ⟨rfl, -⟩ :=
    exec_cases h
  · rfl
  · rfl
  · exact absurd (beq_iff_eq.mp hq) (bne_iff_ne.mp hc)
  · rfl
  · exact absurd rfl hi
  · exact absurd rfl hi
  · exact absurd hq Bool.false_ne_true

/-- A STROBE of a live state, ticking or not, counts by one (R120). -/
theorem exec_strobe_counted {s t : State} (hs : Live s) (h : exec .strobe s = .next t) : Counted s t 1 := by
  obtain ⟨hv, -, -, -, -, -, -, -, hcnt⟩ := hs
  have hticked := exec_ticked hv (by decide) h
  cases hc : completesPeriod s.regs with
  | true =>
    have hfull := (completesPeriod_iff _).mp hc
    obtain rfl := Host.Outcome.next.inj ((exec_strobe_of_completes hc).symm.trans h)
    rw [if_pos ⟨rfl, hc⟩] at hticked
    refine ⟨?_, ?_, rfl, rfl, rfl⟩
    · rwa [hfull, Nat.div_self (Nat.zero_lt_of_lt hcnt)]
    · rw [hfull, Nat.mod_self]
      rfl
  | false =>
    have hlt : s.regs.tcnt.toNat + 1 < s.regs.period.toNat :=
      lt_of_le_of_ne hcnt ((completesPeriod_eq_false_iff _).mp hc)
    obtain rfl := Host.Outcome.next.inj ((exec_strobe_of_not_completes hc).symm.trans h)
    rw [if_neg (by simp [hc])] at hticked
    refine ⟨?_, ?_, rfl, rfl, rfl⟩
    · rwa [Nat.div_eq_of_lt hlt]
    · rw [Nat.mod_eq_of_lt hlt, countStrobe_tcnt_toNat hlt]

/-- One quiet event of a live state: a STROBE counts, any other leaves the tick generator alone (R123). -/
theorem exec_counted {i : Instr} {s t : State} (hs : Live s) (hq : quiet s.cfg s.regs.freq i = true)
    (h : exec i s = .next t) : Counted s t (strobeCount [i]) := by
  by_cases hi : i = .strobe
  · subst hi
    exact exec_strobe_counted hs h
  · have hreset : i ≠ .reset := by
      rintro rfl
      exact absurd hq Bool.false_ne_true
    have hticked := exec_ticked hs.1 hreset h
    rw [if_neg (fun hstrobe => hi hstrobe.1)] at hticked
    have hnone : strobeCount [i] = 0 := List.count_eq_zero.mpr (by simpa using Ne.symm hi)
    rw [hnone]
    exact .of_regs_eq hs hticked (exec_quiet_regs hq hi h)

/-- Every quiet run of a live state completes, with the ticks of its strobes. -/
theorem runEvents_counted {es : List Instr} {s : State} (hs : Live s) (hq : es.all (quiet s.cfg s.regs.freq) = true) :
    ∃ t, runEvents es s = .next t ∧ Counted s t (strobeCount es) := by
  induction es generalizing s with
  | nil => exact ⟨s, runEvents_nil hs.1, .of_regs_eq hs (.refl s) rfl⟩
  | cons i es ih =>
    obtain ⟨hi, hes⟩ := Bool.and_eq_true_iff.mp (List.all_cons.symm.trans hq)
    obtain ⟨u, hexec⟩ := exec_completes i s
    have hu := exec_counted hs hi hexec
    obtain ⟨t, hrest, ht⟩ := ih (exec_keeps_live hs hexec) (by rwa [hu.ticked.cfg, hu.freq])
    have htake : takeEvent i s = .next u := (takeEvent_running hs.1 hs.2.1 i).trans hexec
    refine ⟨t, (runEvents_cons htake es).trans hrest, ?_⟩
    have hcount : strobeCount (i :: es) = strobeCount [i] + strobeCount es := List.count_append (l₁ := [i])
    rw [hcount]
    exact hu.trans ht

/-- Settles O19: the fields of `Counted`. -/
theorem ticksOfQuietRun : Obligations.TicksOfQuietRun := by
  intro s es hs hq
  obtain ⟨t, hrun, hcount⟩ := runEvents_counted hs hq
  exact ⟨t, hrun, hcount.ticked.trace, hcount.ticked.length_samples, hcount.tcnt, hcount.freq, hcount.period,
    hcount.retargets⟩

/-! ### The output frequency -/

/-- The period is the whole part of `K / (f · N)` (R150). -/
theorem periodOf_brackets {c : Config} (h : c.valid = true) {f : Int} (h1 : c.freqMin ≤ f) (h2 : f ≤ c.freqMax) :
    periodOf c f * (f * c.N) ≤ K ∧ K < (periodOf c f + 1) * (f * c.N) := by
  have hpos : 0 < f * c.N := by linarith [(freq_mul_N h h1 h2).1]
  exact ⟨Int.ediv_mul_le K hpos.ne', Int.lt_ediv_add_one_mul_self K hpos⟩

/-- In a live state the period is positive and the whole part of `K / (freq · N)`, as rationals (R27, R150). -/
theorem live_period_brackets {s : State} (hs : Live s) :
    (0 : Rat) < s.regs.period.toNat ∧
    (s.regs.period.toNat : Rat) * (s.regs.freq.toNat * s.cfg.N) ≤ 65536000000 ∧
    (65536000000 : Rat) < (s.regs.period.toNat + 1) * (s.regs.freq.toNat * s.cfg.N) := by
  obtain ⟨hv, -, -, -, -, hmin, hmax, hper, hcnt⟩ := hs
  obtain ⟨hle, hlt⟩ := periodOf_brackets hv hmin hmax
  rw [← hper, K] at hle hlt
  exact ⟨by exact_mod_cast Nat.zero_lt_of_lt hcnt, by exact_mod_cast hle, by exact_mod_cast hlt⟩

/-- In a live state the frequency word is below `2^31`, so it denotes its own value over `2^16` (R12, R26). -/
theorem live_hertz {s : State} (hs : Live s) : hertz s.regs.freq = (s.regs.freq.toNat : Rat) / 65536 := by
  obtain ⟨hv, -, -, -, -, -, hmax, -⟩ := hs
  have hp := s.cfg.params_of_valid hv
  have hsint : sint32 s.regs.freq = s.regs.freq.toNat := if_pos (by omega)
  rw [hertz, hsint, Int.cast_natCast]

/-- Settles O24: both bounds are `live_period_brackets`, over `N · period`. -/
theorem outputFrequencyBounds : Obligations.OutputFrequencyBounds := by
  refine ⟨fun s hs => ?live, by decide +kernel, ?at50Hz⟩
  case live =>
    have hformula : outputHz s.cfg s.regs.period.toNat = 1000000 / ((s.cfg.N : Rat) * s.regs.period.toNat) := by
      rw [outputHz, Int.cast_natCast]
    have hN : (0 : Rat) < s.cfg.N := by exact_mod_cast s.cfg.N_pos hs.1
    obtain ⟨hp, hle, hlt⟩ := live_period_brackets hs
    refine ⟨hformula, ?lower, ?upper⟩
    case lower =>
      rw [hformula, live_hertz hs, div_le_div_iff₀ (by norm_num) (by positivity)]
      linarith
    case upper =>
      rw [hformula, live_hertz hs, ← div_div, div_lt_div_iff_of_pos_right hp, div_lt_iff₀ hN]
      linarith
  case at50Hz =>
    have hN : EX1.N = 600 := rfl
    norm_num [outputHz, hN]

end Sys2Proof.Machine

/-! SUPPORT. The frequency converter (spec/42_frequency.md R150 to R158): the period as a function of the frequency, the
clamp of a written word, and what a FREQ write does and leaves unchanged; what a read returns (spec/43_register_access.md);
and the statements O25 to O30, O32 and O35. -/

namespace Sys2Proof.Machine

/-! ### The period function -/

/-- The integer quotient is the floor of R150's rational one. -/
theorem periodOf_eq_floor {c : Config} (h : c.valid = true) {f : Int} (h1 : c.freqMin ≤ f) (h2 : f ≤ c.freqMax) :
    periodOf c f = ⌊(1000000 : Rat) / ((f : Rat) / 65536 * c.N)⌋ := by
  obtain ⟨hle, hlt⟩ := periodOf_brackets h h1 h2
  have hpos : (0 : Rat) < f * c.N := by
    have := (freq_mul_N h h1 h2).1
    exact_mod_cast (by omega : 0 < f * c.N)
  have hquot : (1000000 : Rat) / ((f : Rat) / 65536 * c.N) = (K : Int) / (f * c.N) := by
    rw [div_mul_eq_mul_div, div_div_eq_mul_div]
    norm_num
  rw [hquot, eq_comm, Int.floor_eq_iff, le_div_iff₀ hpos, div_lt_iff₀ hpos]
  exact ⟨by exact_mod_cast hle, by exact_mod_cast hlt⟩

/-- A larger divisor gives no larger period (R151). -/
theorem periodOf_antitone {c : Config} (h : c.valid = true) {f g : Int} (h1 : c.freqMin ≤ f) (hfg : f ≤ g)
    (h2 : g ≤ c.freqMax) : periodOf c g ≤ periodOf c f := by
  have hpos := (freq_mul_N h h1 (hfg.trans h2)).1
  have hper : 0 ≤ periodOf c g := zero_le_one.trans (periodOf_bounds h (h1.trans hfg) h2).1
  refine (Int.le_ediv_iff_mul_le (by omega)).mpr ?_
  calc periodOf c g * (f * c.N) ≤ periodOf c g * (g * c.N) := by gcongr
    _ ≤ K := (periodOf_brackets h (h1.trans hfg) h2).1

/-- Settles O25: the floor, and the bounds of the quotient and of its divisor. -/
theorem periodIsFloorOfQuotient : Obligations.PeriodIsFloorOfQuotient := by
  refine ⟨fun c f h h1 h2 => ?_, by decide, by decide, by decide, by decide +kernel⟩
  have hdiv := (freq_mul_N h h1 h2).1
  obtain ⟨hlo, hhi⟩ := periodOf_bounds h h1 h2
  exact ⟨periodOf_eq_floor h h1 h2, hlo, by omega, by omega⟩

/-- Settles O26: the period is antitone, so its bounds at the two words hold. -/
theorem periodFunctionProperties : Obligations.PeriodFunctionProperties := by
  refine ⟨fun c f g h h1 hfg h2 => ?_, by decide +kernel, by decide +kernel⟩
  exact ⟨periodOf_antitone h h1 hfg h2, (periodOf_bounds h (h1.trans hfg) h2).1,
    (periodOf_bounds h h1 (hfg.trans h2)).2⟩

/-! ### The clamp -/

theorem clampFreq_eq_toInt (c : Config) (d : Word) : clampFreq c d = min (max d.toInt c.freqMin) c.freqMax := by
  rw [clampFreq, sint32_eq_toInt]

theorem clampFreq_of_le_freqMin {c : Config} (h : c.valid = true) {d : Word} (hd : d.toInt ≤ c.freqMin) :
    clampFreq c d = c.freqMin := by
  have hp := c.params_of_valid h
  rw [clampFreq_eq_toInt, max_eq_right hd, min_eq_left (by omega)]

theorem clampFreq_of_nonpos {c : Config} (h : c.valid = true) {d : Word} (hd : d.toInt ≤ 0) :
    clampFreq c d = c.freqMin := by
  have hp := c.params_of_valid h
  exact clampFreq_of_le_freqMin h (by omega)

theorem clampFreq_of_freqMax_le {c : Config} {d : Word} (hd : c.freqMax ≤ d.toInt) :
    clampFreq c d = c.freqMax := by
  rw [clampFreq_eq_toInt, min_eq_right (hd.trans (le_max_left _ _))]

/-- A word with bit 31 set is negative (R11). -/
theorem toInt_neg_of_bit31 {d : Word} (hd : d.getLsbD 31 = true) : d.toInt < 0 := by
  have hmsb : d.msb = true := hd
  simpa [BitVec.msb_eq_toInt] using hmsb

/-- The clamp leaves a frequency of the build as it is (R152). -/
theorem clampFreq_uint32 {c : Config} (h : c.valid = true) {f : Int} (h1 : c.freqMin ≤ f) (h2 : f ≤ c.freqMax) :
    clampFreq c (uint32 f) = f := by
  have hp := c.params_of_valid h
  have hf : ((uint32 f).toNat : Int) = f := uint32_toNat (by omega) (by omega)
  have hsint : sint32 (uint32 f) = f := by rw [sint32, if_pos (by omega), hf]
  rw [clampFreq, hsint, max_eq_left h1, min_eq_left h2]

/-- Settles O27: each clause is the clamp at or beyond an end of the range. -/
theorem clampOfWrittenWord : Obligations.ClampOfWrittenWord := by
  refine ⟨fun c d h => ?clauses, fun c h => ?corners, by decide +kernel⟩
  case clauses =>
    have hp := c.params_of_valid h
    obtain ⟨hlo, hhi⟩ := clampFreq_mem h d
    exact ⟨clampFreq_eq_toInt c d, hlo, hhi, by omega, clampFreq_of_nonpos h,
      fun hbit => clampFreq_of_nonpos h (toInt_neg_of_bit31 hbit).le, fun hd => clampFreq_of_freqMax_le hd.le⟩
  case corners =>
    have hp := c.params_of_valid h
    have hmaxWord : (0x7FFFFFFF#32).toInt = 2147483647 := by decide
    exact ⟨clampFreq_of_nonpos h (by decide), clampFreq_of_nonpos h (by decide), clampFreq_of_nonpos h (by decide),
      clampFreq_of_freqMax_le (by omega), clampFreq_uint32 h le_rfl (by omega), clampFreq_uint32 h (by omega) le_rfl⟩

/-! ### A write of FREQ -/

/-- A write of another clamped frequency is a retarget to it (R153). -/
theorem exec_wrFreq_of_clamp_ne {s : State} {d : Word} (h : s.cfg.valid = true)
    (hne : clampFreq s.cfg d ≠ (s.regs.freq.toNat : Int)) :
    exec (.wrFreq d) s = .next (retarget (clampFreq s.cfg d) s) :=
  if_pos ((changesFreq_iff h d s.regs).mpr hne)

/-- A write of the current frequency changes nothing (R153). -/
theorem exec_wrFreq_of_clamp_eq {s : State} {d : Word} (h : s.cfg.valid = true)
    (heq : clampFreq s.cfg d = (s.regs.freq.toNat : Int)) : exec (.wrFreq d) s = .next s :=
  if_neg fun hc => (changesFreq_iff h d s.regs).mp hc heq

/-- Settles O28: `retarget` field by field, or no change. -/
theorem freqWriteRetargetsOnChange : Obligations.FreqWriteRetargetsOnChange := by
  refine ⟨fun s d h hne => ?_, fun s d h heq => exec_wrFreq_of_clamp_eq h heq⟩
  obtain ⟨hlo, hhi⟩ := clampFreq_mem h d
  exact ⟨_, exec_wrFreq_of_clamp_ne h hne, clampFreq_toNat h d, periodOf_toNat h hlo hhi, rfl, BitVec.toNat_ofNat _ _,
    rfl, rfl, rfl, rfl, rfl, rfl⟩

/-- After a FREQ write, changing or not, the frequency is the clamped word (R153). -/
theorem exec_wrFreq_freq {s t : State} {d : Word} (h : s.cfg.valid = true) (ht : exec (.wrFreq d) s = .next t) :
    (t.regs.freq.toNat : Int) = clampFreq s.cfg d := by
  by_cases heq : clampFreq s.cfg d = (s.regs.freq.toNat : Int)
  · obtain rfl := Host.Outcome.next.inj ((exec_wrFreq_of_clamp_eq h heq).symm.trans ht)
    exact heq.symm
  · obtain rfl := Host.Outcome.next.inj ((exec_wrFreq_of_clamp_ne h heq).symm.trans ht)
    exact clampFreq_toNat h d

/-- A FREQ write depends on its word through the clamp alone (R156). -/
theorem exec_wrFreq_congr {s : State} {d₁ d₂ : Word} (heq : clampFreq s.cfg d₁ = clampFreq s.cfg d₂) :
    exec (.wrFreq d₁) s = exec (.wrFreq d₂) s := by
  rw [exec, exec, execWrFreq, execWrFreq, changesFreq, changesFreq, heq]

/-- Settles O29: the clamp decides the outcome, and the outcome's frequency shows the clamp. -/
theorem candidatesEqualExactlyWhenClampsEqual : Obligations.CandidatesEqualExactlyWhenClampsEqual := by
  intro s d₁ d₂ h
  refine ⟨fun heq => ?_, exec_wrFreq_congr⟩
  obtain ⟨t, ht⟩ := exec_completes (.wrFreq d₁) s
  rw [← exec_wrFreq_freq h ht, exec_wrFreq_freq h (heq ▸ ht)]

/-- Settles O32: a write is no tick, and the outputs follow the indices. -/
theorem retargetIsPhaseContinuous : Obligations.RetargetIsPhaseContinuous := by
  intro s d
  obtain ⟨t, h⟩ := exec_completes (.wrFreq d) s
  obtain ⟨hstrobe, -⟩ | ⟨-, -, hnone, hidx⟩ := exec_ticks_or_no_sample h
  · cases hstrobe
  · obtain ⟨hA, hB⟩ := hidx (by simp)
    exact ⟨t, h, hA, hB, by rw [outA, outA, exec_cfg h, hA], by rw [outB, outB, exec_cfg h, hB], hnone⟩

/-! ### Events and runs without a retarget -/

/-- Between the two states there was neither RESET nor retarget: the frequency and the count of retargets are as they
were, and no retarget was shown (R153). -/
structure NoRetarget (s t : State) : Prop where
  cfg : t.cfg = s.cfg
  afterReset : t.afterReset = s.afterReset
  trace : t.trace = s.trace ++ newObs s t
  freq : t.regs.freq = s.regs.freq
  retargets : t.regs.retargets = s.regs.retargets
  shown : retargetsOf (newObs s t) = []

/-- What two runs one after the other show. -/
theorem newObs_trans {s t u : State} (h : t.trace = s.trace ++ newObs s t) (h' : u.trace = t.trace ++ newObs t u) :
    newObs s u = newObs s t ++ newObs t u :=
  newObs_of_append (by rw [h', ← List.append_assoc, ← h])

theorem NoRetarget.refl (s : State) : NoRetarget s s := ⟨rfl, rfl, by simp [newObs], rfl, rfl, by simp [newObs]⟩

theorem NoRetarget.trans {s t u : State} (h : NoRetarget s t) (h' : NoRetarget t u) : NoRetarget s u := by
  have hobs := newObs_trans h.trace h'.trace
  refine ⟨h'.cfg.trans h.cfg, h'.afterReset.trans h.afterReset, ?trace, h'.freq.trans h.freq,
    h'.retargets.trans h.retargets, ?shown⟩
  case trace => rw [hobs, ← List.append_assoc, ← h.trace, h'.trace]
  case shown => rw [hobs, retargetsOf_append, h.shown, h'.shown, List.append_nil]

/-- A quiet event does not retarget (R32). -/
theorem exec_quiet_noRetarget {i : Instr} {s t : State} (hq : quiet s.cfg s.regs.freq i = true)
    (h : exec i s = .next t) : NoRetarget s t := by
  obtain ⟨r, -, rfl⟩ | ⟨r, d, -, -, rfl⟩ | ⟨d, rfl, hc, -⟩ | ⟨d, -, -, rfl⟩ | ⟨-, -, rfl⟩ | ⟨-, -, rfl⟩ | ⟨rfl, -⟩ :=
    exec_cases h
  · exact ⟨rfl, rfl, by simp, rfl, rfl, by simp⟩
  · exact .refl t
  · exact absurd (beq_iff_eq.mp hq) (bne_iff_ne.mp hc)
  · exact .refl t
  · exact ⟨rfl, rfl, by simp [newObs], rfl, rfl, by simp [newObs]⟩
  · exact ⟨rfl, rfl, by simp [newObs], rfl, rfl, by simp [newObs]⟩
  · exact absurd hq Bool.false_ne_true

/-- No event lowers the flag of R42. -/
theorem exec_afterReset {i : Instr} {s t : State} (ha : s.afterReset = true) (h : exec i s = .next t) :
    t.afterReset = true := by
  obtain ⟨r, -, rfl⟩ | ⟨r, d, -, -, rfl⟩ | ⟨d, -, -, rfl⟩ | ⟨d, -, -, rfl⟩ | ⟨-, -, rfl⟩ | ⟨-, -, rfl⟩ | ⟨-, rfl⟩ :=
    exec_cases h <;> simp [ha]

/-- After the first RESET of a built block every quiet run completes without a retarget. -/
theorem runEvents_quiet_noRetarget {es : List Instr} {s : State} (hv : s.cfg.valid = true) (ha : s.afterReset = true)
    (hq : es.all (quiet s.cfg s.regs.freq) = true) : ∃ t, runEvents es s = .next t ∧ NoRetarget s t := by
  induction es generalizing s with
  | nil => exact ⟨s, runEvents_nil hv, .refl s⟩
  | cons i es ih =>
    obtain ⟨hi, hes⟩ := Bool.and_eq_true_iff.mp (List.all_cons.symm.trans hq)
    obtain ⟨u, hexec⟩ := exec_completes i s
    have hu := exec_quiet_noRetarget hi hexec
    obtain ⟨t, hrest, ht⟩ := ih (by rwa [hu.cfg]) (by rwa [hu.afterReset]) (by rwa [hu.cfg, hu.freq])
    exact ⟨t, (runEvents_cons ((takeEvent_running hv ha i).trans hexec) es).trans hrest, hu.trans ht⟩

/-- Events with neither RESET nor FREQ write are quiet at any frequency. -/
theorem all_quiet_of_no_wrFreq {es : List Instr} (hreset : Instr.reset ∉ es) (hwr : ∀ x, Instr.wrFreq x ∉ es)
    (c : Config) (f : Word) : es.all (quiet c f) = true := by
  rw [List.all_eq_true]
  intro i hi
  cases i
  case reset => exact absurd hi hreset
  case wrFreq x => exact absurd hi (hwr x)
  all_goals rfl

/-- The retargets of one FREQ write: one if it changes the frequency, and otherwise none (R153). -/
theorem exec_wrFreq_retargets {s u : State} {d : Word} (h : s.cfg.valid = true) (hu : exec (.wrFreq d) s = .next u) :
    u.trace = s.trace ++ newObs s u ∧
    ((clampFreq s.cfg d ≠ (s.regs.freq.toNat : Int) ∧ (retargetsOf (newObs s u)).length = 1 ∧
      u.regs.retargets.toNat = (s.regs.retargets.toNat + 1) % 2 ^ 32) ∨
     (clampFreq s.cfg d = (s.regs.freq.toNat : Int) ∧ retargetsOf (newObs s u) = [] ∧
      u.regs.retargets = s.regs.retargets)) := by
  by_cases heq : clampFreq s.cfg d = (s.regs.freq.toNat : Int)
  · obtain rfl := Host.Outcome.next.inj ((exec_wrFreq_of_clamp_eq h heq).symm.trans hu)
    exact ⟨by simp [newObs], .inr ⟨heq, by simp [newObs], rfl⟩⟩
  · obtain rfl := Host.Outcome.next.inj ((exec_wrFreq_of_clamp_ne h heq).symm.trans hu)
    exact ⟨by simp [newObs], .inl ⟨heq, by simp [newObs], BitVec.toNat_ofNat _ _⟩⟩

/-- Settles O30: the events between keep the frequency that the first write installed, so the second finds it there. -/
theorem secondWriteOfSameWordIsNoOp : Obligations.SecondWriteOfSameWordIsNoOp := by
  intro s d es hv ha hreset hwr
  obtain ⟨u, hu⟩ := exec_completes (.wrFreq d) s
  have hcfg := exec_cfg hu
  have hau := exec_afterReset ha hu
  obtain ⟨t, hrest, ht⟩ := runEvents_quiet_noRetarget (hcfg ▸ hv) hau
    (all_quiet_of_no_wrFreq hreset hwr u.cfg u.regs.freq)
  obtain ⟨htrace, hcount⟩ := exec_wrFreq_retargets hv hu
  have hvt : t.cfg.valid = true := by rwa [ht.cfg, hcfg]
  have hrun : runEvents (.wrFreq d :: es) s = .next t :=
    (runEvents_cons ((takeEvent_running hv ha _).trans hu) es).trans hrest
  have hsecond : exec (.wrFreq d) t = .next t :=
    exec_wrFreq_of_clamp_eq hvt (by rw [ht.freq, exec_wrFreq_freq hv hu, ht.cfg, hcfg])
  have hboth : runEvents (.wrFreq d :: (es ++ [.wrFreq d])) s = .next t := by
    have hat : t.afterReset = true := ht.afterReset.trans hau
    rw [← List.cons_append, runEvents_append hrun, runEvents_cons ((takeEvent_running hvt hat _).trans hsecond),
      runEvents_nil hvt]
  have hshown : retargetsOf (newObs s t) = retargetsOf (newObs s u) := by
    rw [newObs_trans htrace ht.trace, retargetsOf_append, ht.shown, List.append_nil]
  refine ⟨u, t, hu, hrun, hsecond, hboth, ht.retargets, hshown, ?_⟩
  rw [hshown, ht.retargets]
  obtain ⟨hne, hone, hnum⟩ | ⟨heq, hnone, hsame⟩ := hcount
  · exact ⟨hone.le, fun _ => ⟨hone, hnum⟩, fun heq => absurd heq hne⟩
  · exact ⟨by simp [hnone], fun hne => absurd heq hne, fun _ => ⟨hnone, hsame⟩⟩

/-! ### The reads of whole registers -/

theorem readReturns_readEvent (r : RegName) (s : State) : ReadReturns (readEvent r) r (regValue r s) s :=
  ⟨readReg r s, exec_readEvent r s, rfl, ⟨rfl, rfl, rfl⟩, rfl⟩

/-- In a live state the frequency is in range and below `2^31`, and the period is not 0 (R26, R27). -/
theorem live_freq_period {s : State} (hs : Live s) :
    s.cfg.freqMin ≤ (s.regs.freq.toNat : Int) ∧ (s.regs.freq.toNat : Int) ≤ s.cfg.freqMax ∧
    s.regs.freq.getLsbD 31 = false ∧ 1 ≤ s.regs.period.toNat := by
  obtain ⟨hv, -, -, -, -, hmin, hmax, -, hcnt⟩ := hs
  have hp := s.cfg.params_of_valid hv
  exact ⟨hmin, hmax, Nat.testBit_lt_two_pow (by omega), Nat.one_le_of_lt hcnt⟩

/-- Settles O35: each read is `readReturns_readEvent`, and both constants are stored whole. -/
theorem wholeRegisterReads : Obligations.WholeRegisterReads := by
  intro s hv
  have hp := s.cfg.params_of_valid hv
  have hmin : ((uint32 s.cfg.freqMin).toNat : Int) = s.cfg.freqMin := uint32_toNat (by omega) (by omega)
  have hmax : ((uint32 s.cfg.freqMax).toNat : Int) = s.cfg.freqMax := uint32_toNat (by omega) (by omega)
  exact ⟨readReturns_readEvent .freq s, readReturns_readEvent .period s, readReturns_readEvent .retargets s,
    ⟨_, hmin, by omega, readReturns_readEvent .fmin s⟩, ⟨_, hmax, by omega, by omega, readReturns_readEvent .fmax s⟩,
    live_freq_period⟩

end Sys2Proof.Machine

/-! SUPPORT. The fields of the packed registers PHASE, SAMPLE and CONFIG (spec/43_register_access.md R181, R182, R184)
and the ignored writes (R187 to R193): the statements O36, O37, O38 and O40. -/

namespace Sys2Proof.Machine

/-! ### The fields of the packed registers -/

@[simp] theorem phaseWord_high (r : Regs) : (phaseWord r).extractLsb' 16 16 = r.idxA :=
  BitVec.extractLsb'_append_eq_left

@[simp] theorem phaseWord_low (r : Regs) : (phaseWord r).extractLsb' 0 16 = r.idxB :=
  BitVec.extractLsb'_append_eq_right

/-- A code fits the 16-bit half it is extended to, so no bit of it is lost (R36). -/
theorem zext16_code_toNat {c : Config} (h : c.valid = true) (i : Nat) : (zext16 (code c i)).toNat = code c i := by
  rw [zext16, BitVec.toNat_ofNat, Nat.mod_eq_of_lt (code_lt_half h i)]

theorem sampleWord_high {s : State} (h : s.cfg.valid = true) : ((sampleWord s).extractLsb' 16 16).toNat = outA s := by
  rw [sampleWord, BitVec.extractLsb'_append_eq_left, outA, zext16_code_toNat h]

theorem sampleWord_low {s : State} (h : s.cfg.valid = true) : ((sampleWord s).extractLsb' 0 16).toNat = outB s := by
  rw [sampleWord, BitVec.extractLsb'_append_eq_right, outB, zext16_code_toNat h]

@[simp] theorem configWord_bits31to21 (c : Config) : (configWord c).extractLsb' 21 11 = 0#11 := by
  rw [configWord, BitVec.extractLsb'_append_eq_of_le (by decide), BitVec.extractLsb'_append_eq_left]

/-- `R` is at most 16, so its five bits hold it whole (R6). -/
theorem configWord_bits20to16 {c : Config} (h : c.valid = true) : ((configWord c).extractLsb' 16 5).toNat = c.R := by
  have hp := c.params_of_valid h
  rw [configWord, BitVec.extractLsb'_append_eq_of_le le_rfl, BitVec.extractLsb'_append_eq_right,
    BitVec.toNat_ofNat, Nat.mod_eq_of_lt (by omega)]

/-- `N` is at most 65532, so its sixteen bits hold it whole (R6). -/
theorem configWord_bits15to0 {c : Config} (h : c.valid = true) : ((configWord c).extractLsb' 0 16).toNat = c.N := by
  have hp := c.params_of_valid h
  rw [configWord, BitVec.extractLsb'_append_eq_right, BitVec.toNat_ofNat, Nat.mod_eq_of_lt (by omega)]

/-! ### The statements -/

/-- Settles O36: the fields are the two indices themselves, and a live state relates and bounds those. -/
theorem phaseReadPacksIndices : Obligations.PhaseReadPacksIndices := by
  intro s
  refine ⟨phaseWord s.regs, readReturns_readEvent .phase s, phaseWord_high _, phaseWord_low _, fun hs => ?_⟩
  obtain ⟨-, -, hA, hB, hquarter, -⟩ := hs
  rw [phaseWord_high, phaseWord_low]
  exact ⟨hquarter, Nat.le_sub_one_of_lt hA, Nat.le_sub_one_of_lt hB⟩

/-- Settles O37: each field is its output's code whole, and the ROM of a valid build holds R-bit codes. -/
theorem sampleReadPacksCodes : Obligations.SampleReadPacksCodes := by
  intro s hv
  have hA := sampleWord_high hv
  have hB := sampleWord_low hv
  exact ⟨sampleWord s, readReturns_readEvent .sample s, hA, hB, hA, hB,
    hA.trans_lt (code_lt hv _), hB.trans_lt (code_lt hv _)⟩

/-- Settles O38: both parameters of a valid build fit their fields. -/
theorem configReadPacksParameters : Obligations.ConfigReadPacksParameters :=
  fun s hv => ⟨configWord s.cfg, readReturns_readEvent .config s, configWord_bits31to21 _,
    configWord_bits20to16 hv, configWord_bits15to0 hv⟩

/-- Settles O40: each of the seven is the write event of a register other than FREQ. -/
theorem readOnlyWritesIgnored : Obligations.ReadOnlyWritesIgnored := by
  intro s d
  have hignored : ∀ r : RegName, r ≠ .freq → exec (writeEvent r d) s = .next s :=
    fun _ hr => exec_writeEvent_readOnly hr d s
  exact ⟨hignored .period (by decide), hignored .phase (by decide), hignored .sample (by decide),
    hignored .retargets (by decide), hignored .config (by decide), hignored .fmin (by decide),
    hignored .fmax (by decide)⟩

end Sys2Proof.Machine

/-! SUPPORT. Taking a word that some event encodes, and a register that is read-only (spec/60_exceptions.md R210,
spec/10_state.md R41), and the statement O7. -/

namespace Sys2Proof.Machine

/-- After a RESET a word that decodes has its event's effect (R76). -/
theorem takeWord_running {w : EventWord} {i : Instr} {s : State} (hv : s.cfg.valid = true) (ha : s.afterReset = true)
    (hw : decode w = .ok i) : takeWord w s = exec i s := by
  rw [takeWord, if_pos hv, hw]
  exact takeEvent_running hv ha i

/-- FREQ is the one register that is not read-only (R41). -/
theorem accessOfReg_eq_RO_iff (r : RegName) : accessOfReg r = .RO ↔ r ≠ .freq := by
  cases r <;> decide

/-- Settles O7: a well-formed word decodes and its event completes, a write to a register other than FREQ is ignored,
and there is no fault to answer. -/
theorem noEventFails : Obligations.NoEventFails := by
  refine ⟨fun w s hw hv ha => ?word, fun r d s hr hv ha => ?readOnly, fun _ f => ?fault⟩
  case word =>
    obtain ⟨i, hi⟩ := (wordWellFormed_iff_decode w).mp hw
    obtain ⟨t, ht⟩ := exec_completes i s
    exact ⟨i, t, hi, (takeWord_running hv ha hi).trans ht, ht⟩
  case readOnly =>
    have hfreq : r ≠ .freq := (accessOfReg_eq_RO_iff r).mp hr
    exact (takeEvent_running hv ha _).trans (exec_writeEvent_readOnly hfreq d s)
  case fault => cases f

end Sys2Proof.Machine

/-! SUPPORT. RESET, writes of the unchanged frequency, and retarget starvation (spec/70_reset_and_hazards.md R230, R236,
R237): the statements O10, O33 and O34. -/

namespace Sys2Proof.Machine

/-! ### RESET -/

theorem exec_reset (s : State) : exec .reset s = .next (applyReset s) := rfl

/-- A RESET after a RESET finds every field already at its reset value (R230). -/
@[simp] theorem applyReset_applyReset (s : State) : applyReset (applyReset s) = applyReset s := rfl

/-- Settles O10: `applyReset` field by field, and a reset cycle is RESET alone. -/
theorem resetInstallsResetValues : Obligations.ResetInstallsResetValues := by
  refine ⟨fun s hv => ?values, fun p b hrst hv => ⟨_, exec_reset b.st, cycle_reset hv hrst⟩⟩
  case values =>
    obtain ⟨hA, hfreq, hperiod⟩ := resetRegs_toNat hv
    have hagain : exec .reset (applyReset s) = .next (applyReset s) := by
      rw [exec_reset, applyReset_applyReset]
    exact ⟨_, exec_reset s, hA, rfl, hfreq, hperiod, rfl, rfl, rfl, rfl, rfl, rfl, hagain⟩

/-! ### What a run keeps -/

/-- What every event keeps, every completed run keeps. -/
theorem runEvents_keeps {P : State → Prop} (hexec : ∀ {i s t}, P s → exec i s = .next t → P t) {es : List Instr}
    {s t : State} (hs : P s) (h : runEvents es s = .next t) : P t := by
  induction es generalizing s with
  | nil =>
    obtain ⟨-, rfl⟩ := runEvents_nil_next h
    exact hs
  | cons i es ih =>
    obtain ⟨u, htake, hrest⟩ := runEvents_cons_next h
    obtain ⟨-, -, hi⟩ := takeEvent_next htake
    exact ih (hexec hs hi) hrest

theorem runEvents_keeps_live {es : List Instr} {s t : State} (hs : Live s) (h : runEvents es s = .next t) : Live t :=
  runEvents_keeps exec_keeps_live hs h

/-- Only a built block completes a run (R212). -/
theorem valid_of_runEvents {es : List Instr} {s t : State} (h : runEvents es s = .next t) : s.cfg.valid = true := by
  cases es with
  | nil => exact (runEvents_nil_next h).1
  | cons i es =>
    obtain ⟨u, htake, -⟩ := runEvents_cons_next h
    exact (takeEvent_next htake).1

/-- A run that completes after the first RESET ends in a built block after its first RESET (R42, R212). -/
theorem runEvents_running {es : List Instr} {s t : State} (ha : s.afterReset = true) (h : runEvents es s = .next t) :
    t.cfg.valid = true ∧ t.afterReset = true :=
  runEvents_keeps (P := fun s => s.cfg.valid = true ∧ s.afterReset = true)
    (fun ⟨hv, ha⟩ hi => ⟨by rwa [exec_cfg hi], exec_afterReset ha hi⟩) ⟨valid_of_runEvents h, ha⟩ h

/-! ### A write of the unchanged frequency -/

/-- Settles O33: where the first part ends, the write leaves the whole state alone. -/
theorem unchangedWriteDoesNotDisturb : Obligations.UnchangedWriteDoesNotDisturb := by
  intro s s₁ d es₁ es₂ ha hrun heq
  obtain ⟨hv, ha₁⟩ := runEvents_running ha hrun
  have htake : takeEvent (.wrFreq d) s₁ = .next s₁ :=
    (takeEvent_running hv ha₁ _).trans (exec_wrFreq_of_clamp_eq hv heq)
  rw [runEvents_append hrun, runEvents_append hrun, runEvents_cons htake]

/-! ### Retarget starvation -/

@[simp] theorem uint32_natCast_toNat (w : Word) : uint32 (w.toNat : Int) = w := by
  rw [uint32, BitVec.ofInt_natCast, BitVec.ofNat_toNat, BitVec.setWidth_eq]

/-- With no tick between them two states have the same codes at their outputs (R74). -/
theorem Ticked.outputs_eq {s t : State} (h : Ticked s t 0) : outA t = outA s ∧ outB t = outB s := by
  have hpair := h.pairAfter_eq 0
  simpa [pairAfter, outA, outB] using hpair

/-- No tick between the two states, and `n` retargets shown. -/
structure Starved (s t : State) (n : Nat) : Prop where
  ticked : Ticked s t 0
  retargets : (retargetsOf (newObs s t)).length = n

namespace Starved

variable {s t u : State} {n m : Nat}

theorem refl (s : State) : Starved s s 0 := ⟨.refl s, by simp [newObs]⟩

theorem trans (h : Starved s t n) (h' : Starved t u m) : Starved s u (n + m) := by
  refine ⟨h.ticked.trans h'.ticked, ?_⟩
  rw [newObs_trans h.ticked.trace h'.ticked.trace, retargetsOf_append, List.length_append, h.retargets, h'.retargets]

end Starved

/-- A quiet stretch with fewer strobes than are left of the period neither ticks nor retargets (R123). -/
theorem runEvents_quiet_starved {es : List Instr} {s : State} (hs : Live s)
    (hq : es.all (quiet s.cfg s.regs.freq) = true)
    (hshort : s.regs.tcnt.toNat + strobeCount es < s.regs.period.toNat) :
    ∃ t, runEvents es s = .next t ∧ Starved s t 0 ∧ t.regs.freq = s.regs.freq := by
  obtain ⟨t, hrun, hcount⟩ := runEvents_counted hs hq
  obtain ⟨u, hrun', hno⟩ := runEvents_quiet_noRetarget hs.1 hs.2.1 hq
  obtain rfl : t = u := Host.Outcome.next.inj (hrun.symm.trans hrun')
  have hticked := hcount.ticked
  rw [Nat.div_eq_of_lt hshort] at hticked
  exact ⟨t, hrun, ⟨hticked, by rw [hno.shown, List.length_nil]⟩, hcount.freq⟩

/-- A write that changes the frequency retargets once, is no tick, and starts the count anew (R153). -/
theorem exec_changing_wrFreq_starved {s : State} {d : Word} (hv : s.cfg.valid = true)
    (hne : clampFreq s.cfg d ≠ (s.regs.freq.toNat : Int)) :
    ∃ t, exec (.wrFreq d) s = .next t ∧ Starved s t 1 ∧ (t.regs.freq.toNat : Int) = clampFreq s.cfg d ∧
      t.regs.tcnt.toNat = 0 := by
  have hexec := exec_wrFreq_of_clamp_ne hv hne
  have hticked := exec_ticked hv (by simp) hexec
  rw [if_neg (by simp)] at hticked
  exact ⟨_, hexec, ⟨hticked, by simp [newObs]⟩, clampFreq_toNat hv d, rfl⟩

/-- One stretch of the starvation with its closing write. -/
theorem runEvents_burst_starved {es : List Instr} {d : Word} {s : State} (hs : Live s)
    (hq : es.all (quiet s.cfg s.regs.freq) = true)
    (hshort : s.regs.tcnt.toNat + strobeCount es < s.regs.period.toNat)
    (hne : clampFreq s.cfg d ≠ (s.regs.freq.toNat : Int)) :
    ∃ t, runEvents (es ++ [.wrFreq d]) s = .next t ∧ Starved s t 1 ∧
      (t.regs.freq.toNat : Int) = clampFreq s.cfg d ∧ t.regs.tcnt.toNat = 0 := by
  obtain ⟨u, hrun, hquiet, hfreq⟩ := runEvents_quiet_starved hs hq hshort
  have hu := runEvents_keeps_live hs hrun
  have hcfg := hquiet.ticked.cfg
  obtain ⟨t, hexec, hwrite, hnew, hzero⟩ :=
    exec_changing_wrFreq_starved (d := d) hu.1 (by rwa [hcfg, hfreq])
  have htake : takeEvent (.wrFreq d) u = .next t := (takeEvent_running hu.1 hu.2.1 _).trans hexec
  refine ⟨t, ?_, hquiet.trans hwrite, by rw [hnew, hcfg], hzero⟩
  rw [runEvents_append hrun, runEvents_cons htake, runEvents_nil (exec_keeps_live hu hexec).1]

/-- The period of a live state is the one of its frequency (R27). -/
theorem live_period {s : State} (hs : Live s) :
    (s.regs.period.toNat : Int) = periodOf s.cfg (s.regs.freq.toNat : Int) := by
  obtain ⟨-, -, -, -, -, -, -, hperiod, -⟩ := hs
  exact hperiod

/-- Every starving run of a live state completes with no tick and one retarget per write (R236). -/
theorem runEvents_starving {bursts : List (List Instr × Word)} {s : State} (hs : Live s)
    (h : Starving s.cfg s.regs.freq.toNat s.regs.tcnt.toNat bursts) :
    ∃ t, runEvents (burstEvents bursts) s = .next t ∧ Starved s t bursts.length := by
  induction bursts generalizing s with
  | nil => exact ⟨s, runEvents_nil hs.1, .refl s⟩
  | cons burst rest ih =>
    obtain ⟨es, d⟩ := burst
    obtain ⟨hq, hshort, hne, hrest⟩ := h
    have hperiod := live_period hs
    rw [uint32_natCast_toNat] at hq
    obtain ⟨u, hrun, hburst, hnew, hzero⟩ := runEvents_burst_starved hs hq (by omega) hne
    have hstarving : Starving u.cfg u.regs.freq.toNat u.regs.tcnt.toNat rest := by
      rwa [hburst.ticked.cfg, hnew, hzero]
    obtain ⟨t, hruns, ht⟩ := ih (runEvents_keeps_live hs hrun) hstarving
    refine ⟨t, ?run, ?starved⟩
    case run => rw [burstEvents, List.flatMap_cons, runEvents_append hrun, ← burstEvents, hruns]
    case starved =>
      rw [List.length_cons, Nat.add_comm]
      exact hburst.trans ht

/-- Settles O34: no tick leaves no sample and both outputs, and each burst retargets once. -/
theorem retargetStarvation : Obligations.RetargetStarvation := by
  intro s bursts hs h
  obtain ⟨t, hrun, hticked, hretargets⟩ := runEvents_starving hs h
  obtain ⟨hA, hB⟩ := hticked.outputs_eq
  exact ⟨t, hrun, List.length_eq_zero_iff.mp hticked.length_samples, hA, hB, hretargets⟩

end Sys2Proof.Machine

/-! SUPPORT. Decode and encode as inverses, the opcode map's rows kept apart by bits 39:32 (spec/30_encoding.md R76 to
R82), and the statements O1, O2 and O4. -/

namespace Sys2Proof

open Machine Laws

/-- A word that decodes is the word of what it decodes to (R80). -/
theorem encode_of_decode {w : EventWord} {i : Instr} (h : decode w = .ok i) : encode i = w := by
  obtain ⟨-, herr⟩ | ⟨-, j, hj, hw⟩ := decode_cases w
  · rw [herr] at h
    cases h
  · obtain rfl : j = i := Except.ok.inj (hj.symm.trans h)
    exact hw

/-- Settles O2: every event's word decodes to it, and a word that decodes is its event's word. -/
theorem decodeAndEncodeAgree : Obligations.DecodeAndEncodeAgree := by
  intro w i
  refine ⟨encode_of_decode, ?_⟩
  rintro rfl
  exact decode_encode i

/-- Settles O1: six of the words are their events' encodings; the others have the reserved bit set, or a REG in a
strobe. -/
theorem decodesWrittenWords : Obligations.DecodesWrittenWords :=
  ⟨decode_encode .rdFmax, decode_encode (.wrFmax 0x12345678#32), decode_encode (.wrFreq 0x00320000#32),
    decode_encode (.wrFreq 0xFFFFFFFF#32), decode_encode .strobe, decode_encode .reset,
    decode_of_reserved (.inr (.inl (by decide))),
    decode_of_reserved (.inr (.inr (.inr ⟨.inl (by decide), .inl (by decide)⟩)))⟩

/-- A row whose mask covers bits 39:32 fixes these bits of every word that selects it. -/
theorem OpcodeRow.bits39to32_of_selects {r : OpcodeRow} {w : EventWord} (hmask : r.mask.extractLsb' 32 8 = 0xFF#8)
    (hsel : r.selects w = true) : r.matchBits.extractLsb' 32 8 = w.extractLsb' 32 8 := by
  rw [OpcodeRow.selects, beq_iff_eq] at hsel
  rw [← hsel, BitVec.extractLsb'_and, hmask]
  exact BitVec.and_allOnes

theorem opcodeMap_masks_cover : ∀ r ∈ opcodeMap, r.mask.extractLsb' 32 8 = 0xFF#8 := by decide

theorem opcodeMap_patterns_differ : ∀ r₁ ∈ opcodeMap, ∀ r₂ ∈ opcodeMap,
    r₁.matchBits.extractLsb' 32 8 = r₂.matchBits.extractLsb' 32 8 → r₁ = r₂ := by decide

/-- Settles O4: two rows that one word selects agree in bits 39:32, where all patterns differ. -/
theorem opcodeRowsDisjoint : Obligations.OpcodeRowsDisjoint := by
  refine ⟨rfl, opcodeRow_of_event, opcodeMap_masks_cover, opcodeMap_patterns_differ, fun w r₁ h₁ r₂ h₂ hs₁ hs₂ => ?_⟩
  have hw₁ := OpcodeRow.bits39to32_of_selects (opcodeMap_masks_cover r₁ h₁) hs₁
  have hw₂ := OpcodeRow.bits39to32_of_selects (opcodeMap_masks_cover r₂ h₂) hs₂
  exact opcodeMap_patterns_differ r₁ h₁ r₂ h₂ (hw₁.trans hw₂.symm)

end Sys2Proof

/-! SUPPORT. What a step does by the build, the flag of R42 and the next pending word (spec/60_exceptions.md R212), what
an event leaves alone, and runs of steps over the pending input; and the statements O5, O6, O8, O13, O14, O56 and O57. -/

namespace Sys2Proof.Machine

/-! ### The step, case by case -/

theorem takeEvent_of_not_valid {s : State} (hv : s.cfg.valid = false) (i : Instr) :
    takeEvent i s = .refused .badConfig := by
  simp [takeEvent, hv]

theorem takeWord_of_not_valid {s : State} (hv : s.cfg.valid = false) (w : EventWord) :
    takeWord w s = .refused .badConfig := by
  simp [takeWord, hv]

/-- Before the first RESET any other event is refused (R42). -/
theorem takeEvent_of_beforeReset {s : State} {i : Instr} (hv : s.cfg.valid = true) (ha : s.afterReset = false)
    (hi : i ≠ .reset) : takeEvent i s = .refused .beforeReset := by
  simp [takeEvent, hv, ha, hi]

/-- Taking a word that decodes is taking its event: in a build that breaks R8 both are refused alike. -/
theorem takeWord_of_decode {w : EventWord} {i : Instr} (hw : decode w = .ok i) (s : State) :
    takeWord w s = takeEvent i s := by
  cases hv : s.cfg.valid with
  | false => rw [takeWord_of_not_valid hv, takeEvent_of_not_valid hv]
  | true => rw [takeWord, if_pos hv, hw]

theorem takeWord_of_reserved {w : EventWord} {s : State} (hv : s.cfg.valid = true) (hw : ReservedWord w) :
    takeWord w s = .refused (.reservedEvent w) := by
  rw [takeWord, if_pos hv, decode_of_reserved hw]

theorem step_of_pending {s : State} {w : EventWord} {rest : List EventWord} (hin : s.inputs = w :: rest) :
    step s = takeWord w { s with inputs := rest } := by
  rw [step, hin]

theorem step_of_none_pending {s : State} (hin : s.inputs = []) (hv : s.cfg.valid = true) : step s = .next s := by
  rw [step, hin]
  exact if_pos hv

theorem step_of_not_valid {s : State} (hv : s.cfg.valid = false) : step s = .refused .badConfig := by
  cases hin : s.inputs with
  | nil =>
    rw [step, hin]
    exact if_neg (by simp [hv])
  | cons w rest =>
    rw [step_of_pending hin]
    exact takeWord_of_not_valid (s := { s with inputs := rest }) hv w

/-- A reserved word pending is refused by name (R80). -/
theorem step_of_reserved {s : State} {w : EventWord} {rest : List EventWord} (hv : s.cfg.valid = true)
    (hin : s.inputs = w :: rest) (hw : ReservedWord w) : step s = .refused (.reservedEvent w) := by
  rw [step_of_pending hin]
  exact takeWord_of_reserved (s := { s with inputs := rest }) hv hw

/-- With no RESET yet, another event than RESET is refused (R42). -/
theorem step_of_beforeReset {s : State} {w : EventWord} {rest : List EventWord} {i : Instr} (hv : s.cfg.valid = true)
    (hin : s.inputs = w :: rest) (hw : decode w = .ok i) (ha : s.afterReset = false) (hi : i ≠ .reset) :
    step s = .refused .beforeReset := by
  rw [step_of_pending hin, takeWord_of_decode hw]
  exact takeEvent_of_beforeReset (s := { s with inputs := rest }) hv ha hi

theorem step_of_running {s : State} {w : EventWord} {rest : List EventWord} {i : Instr} (hv : s.cfg.valid = true)
    (hin : s.inputs = w :: rest) (hw : decode w = .ok i) (hrun : s.afterReset = true ∨ i = .reset) :
    step s = exec i { s with inputs := rest } := by
  rw [step_of_pending hin, takeWord_of_decode hw]
  obtain ha | rfl := hrun
  · exact takeEvent_running (s := { s with inputs := rest }) hv ha i
  · exact takeEvent_reset (s := { s with inputs := rest }) hv

/-- A step answers a next state, or it refuses one of the three inputs of R212 by its name. -/
theorem step_cases (s : State) :
    (∃ t, step s = .next t) ∨
    (s.cfg.valid = false ∧ step s = .refused .badConfig) ∨
    (∃ w rest, s.inputs = w :: rest ∧ ReservedWord w ∧ step s = .refused (.reservedEvent w)) ∨
    (∃ w rest, s.inputs = w :: rest ∧ decode w ≠ .ok .reset ∧ s.afterReset = false ∧
      step s = .refused .beforeReset) := by
  cases hv : s.cfg.valid with
  | false => exact .inr (.inl ⟨rfl, step_of_not_valid hv⟩)
  | true =>
    cases hin : s.inputs with
    | nil => exact .inl ⟨s, step_of_none_pending hin hv⟩
    | cons w rest =>
      obtain ⟨hres, -⟩ | ⟨-, i, hi, -⟩ := decode_cases w
      · exact .inr (.inr (.inl ⟨w, rest, rfl, hres, step_of_reserved hv hin hres⟩))
      · by_cases hrun : s.afterReset = true ∨ i = .reset
        · obtain ⟨t, ht⟩ := exec_completes i { s with inputs := rest }
          exact .inl ⟨t, (step_of_running hv hin hi hrun).trans ht⟩
        · obtain ⟨ha, hreset⟩ := not_or.mp hrun
          have ha := eq_false_of_ne_true ha
          have hne : decode w ≠ .ok .reset := by simpa [hi] using hreset
          exact .inr (.inr (.inr ⟨w, rest, rfl, hne, ha, step_of_beforeReset hv hin hi ha hreset⟩))

/-- There is no fault, so a step that answers no next state is refused (R210). -/
theorem step_refused_of_no_next {s : State} (h : ∀ t, step s ≠ .next t) : ∃ r, step s = .refused r := by
  cases hstep : step s with
  | next t => exact absurd hstep (h t)
  | fault f => cases f
  | refused r => exact ⟨r, rfl⟩

/-! ### The statements about one step -/

/-- Settles O5: the word decodes, and nothing refuses its event. -/
theorem stepRunsPendingEvent : Obligations.StepRunsPendingEvent :=
  ⟨fun _ _ _ _ hin hw hv hrun => step_of_running hv hin hw hrun, fun _ => step_of_none_pending⟩

/-- Settles O6: a refusal is one of the three of `step_cases`, and a step with a next state meets none of the three
conditions. -/
theorem refusesExactlyThreeInputs : Obligations.RefusesExactlyThreeInputs := by
  refine ⟨fun s r h => ?names, fun s hv => ⟨_, step_of_not_valid hv⟩,
    fun s w rest hin hw => step_refused_of_no_next fun t ht => ?reserved,
    fun s w rest hin ha hne => step_refused_of_no_next fun t ht => ?beforeReset⟩
  case names =>
    obtain ⟨t, ht⟩ | ⟨hv, hr⟩ | ⟨w, rest, hin, hres, hr⟩ | ⟨w, rest, hin, hne, ha, hr⟩ := step_cases s
    · rw [ht] at h
      cases h
    all_goals obtain rfl := Host.Outcome.refused.inj (hr.symm.trans h)
    · exact .inl ⟨rfl, hv⟩
    · exact .inr (.inl ⟨w, rest, hin, rfl, (not_wordWellFormed_iff_reserved w).mpr hres⟩)
    · exact .inr (.inr ⟨w, rest, hin, rfl, hne, ha⟩)
  all_goals
    obtain ⟨-, ⟨hnil, -⟩ | ⟨w', rest', i, hin', hi, hrun, -⟩⟩ := step_next ht
    · rw [hin] at hnil
      cases hnil
    obtain ⟨rfl, rfl⟩ := List.cons.inj (hin.symm.trans hin')
  case reserved =>
    rw [(wordWellFormed_iff_decode w).mpr ⟨i, hi⟩] at hw
    cases hw
  case beforeReset =>
    obtain hat | rfl := hrun
    · rw [hat] at ha
      cases ha
    · exact hne hi

/-- Settles O8: read off `exec_cases`, effect by effect. -/
theorem everyEventFrame : Obligations.EveryEventFrame := by
  intro i s t h
  obtain ⟨r, rfl, rfl⟩ | ⟨r, d, rfl, -, rfl⟩ | ⟨d, rfl, -, rfl⟩ | ⟨d, rfl, -, rfl⟩ | ⟨rfl, -, rfl⟩ | ⟨rfl, -, rfl⟩ |
    ⟨rfl, rfl⟩ := exec_cases h
  · exact ⟨rfl, rfl, by simp, _, readReg_trace r s, le_rfl⟩
  · exact ⟨rfl, rfl, by cases r <;> simp [writeEvent], [], by simp, by simp⟩
  · exact ⟨rfl, rfl, by simp, _, retarget_trace _ s, le_rfl⟩
  · exact ⟨rfl, rfl, by simp, [], by simp, by simp⟩
  · exact ⟨rfl, rfl, by simp, _, tick_trace _, le_rfl⟩
  · exact ⟨rfl, rfl, by simp, [], by simp, by simp⟩
  · exact ⟨rfl, rfl, by simp, [], by simp, by simp⟩

/-- Settles O13: the reset values meet `RegsInv` in every valid build. -/
theorem invariantHoldsAtReset : Obligations.InvariantHoldsAtReset := by
  have hofBuild : ∀ c : Config, c.valid = true → Inv (State.ofBuild c) :=
    fun _ hv => ⟨hv, fun _ => regsInv_resetRegs hv⟩
  exact ⟨hofBuild EX2 (by decide), hofBuild⟩

/-- Settles O14: a step runs one event or changes nothing, and every event keeps `Inv`. -/
theorem stepKeepsInvariant : Obligations.StepKeepsInvariant := fun _ _ => step_keeps_inv

/-- Settles O56: the two parts of the check, and the examples by evaluation. -/
theorem validBuildsExactly : Obligations.ValidBuildsExactly := by
  refine ⟨fun c => ?_, by decide +kernel, by decide, fun _ => step_of_not_valid,
    fun i _ hv => takeEvent_of_not_valid hv i⟩
  rw [c.valid_iff, c.paramsOk_iff, c.tableOk_iff, K]
  norm_num [and_assoc]

/-! ### Runs of steps over the pending input -/

/-- The pending input of an outcome replaced. -/
def withPending (rest : List EventWord) (s : State) : Host.Outcome State Fault Refusal :=
  .next { s with inputs := rest }

theorem exec_withPending (i : Instr) (s : State) (rest : List EventWord) :
    exec i { s with inputs := rest } = andThen (exec i s) (withPending rest) := by
  obtain ⟨t, ht⟩ := exec_completes i s
  rw [ht, exec_inputs ht]
  rfl

theorem takeEvent_withPending (i : Instr) (s : State) (rest : List EventWord) :
    takeEvent i { s with inputs := rest } = andThen (takeEvent i s) (withPending rest) := by
  rw [takeEvent, takeEvent]
  split_ifs
  · exact exec_withPending i s rest
  · rfl
  · rfl

/-- Taking a word neither reads nor writes the pending input behind it. -/
theorem takeWord_withPending (w : EventWord) (s : State) (rest : List EventWord) :
    takeWord w { s with inputs := rest } = andThen (takeWord w s) (withPending rest) := by
  obtain ⟨hres, -⟩ | ⟨-, i, hi, -⟩ := decode_cases w
  · rw [takeWord, takeWord, decode_of_reserved hres]
    split_ifs <;> rfl
  · rw [takeWord_of_decode hi, takeWord_of_decode hi, takeEvent_withPending]

/-- No word writes the build (R20). -/
theorem takeWord_cfg {w : EventWord} {s t : State} (h : takeWord w s = .next t) : t.cfg = s.cfg := by
  have hstep : step { s with inputs := [w] } = .next { t with inputs := [] } := by
    rw [step_of_pending rfl, takeWord_withPending w s [], h]
    rfl
  exact step_cfg (s := { s with inputs := [w] }) (t := { t with inputs := [] }) hstep

theorem run_of_step_next {M : Host.Core} {s t : M.State} (h : M.step s = .next t) (n : Nat) :
    M.run (n + 1) s = M.run n t := by
  rw [Host.Core.run, h]

theorem run_of_step_refused {M : Host.Core} {s : M.State} {r : M.Refusal} (h : M.step s = .refused r) (n : Nat) :
    M.run (n + 1) s = .refused r := by
  rw [Host.Core.run, h]

theorem run_succ (n : Nat) (s : State) :
    Host.Core.run Sys2Proof.core (n + 1) s = andThen (step s) (Host.Core.run Sys2Proof.core n) := by
  cases h : step s with
  | next t => exact run_of_step_next (M := Sys2Proof.core) h n
  | fault f => cases f
  | refused r => exact run_of_step_refused (M := Sys2Proof.core) h n

/-- As many steps as there are words before `rest` run these words with `rest` pending (R245). -/
theorem run_eq_runWords {ws rest : List EventWord} {s : State} (hv : s.cfg.valid = true)
    (hin : s.inputs = ws ++ rest) :
    Host.Core.run Sys2Proof.core ws.length s = runWords ws { s with inputs := rest } := by
  induction ws generalizing s with
  | nil =>
    obtain rfl : s.inputs = rest := hin
    exact (if_pos hv).symm
  | cons w ws ih =>
    have hpending : s.inputs = w :: (ws ++ rest) := hin
    rw [List.length_cons, run_succ, step_of_pending hpending, runWords, takeWord_withPending w s (ws ++ rest),
      takeWord_withPending w s rest]
    cases htake : takeWord w s with
    | next t =>
      have hvt : t.cfg.valid = true := by rwa [takeWord_cfg htake]
      exact ih (s := { t with inputs := ws ++ rest }) hvt rfl
    | fault f => rfl
    | refused r => rfl

theorem runWords_map_encode (es : List Instr) (s : State) : runWords (es.map encode) s = runEvents es s := by
  induction es generalizing s with
  | nil => rfl
  | cons i es ih =>
    have hrest : runWords (es.map encode) = runEvents es := funext ih
    rw [List.map_cons, runWords, runEvents, takeWord_of_decode (decode_encode i), hrest]

/-- Settles O57: steps run words, and the words of events run these events. -/
theorem stepsRunPendingEvents : Obligations.StepsRunPendingEvents := by
  refine ⟨fun s es rest hv hin => ?_, fun _ _ _ => run_eq_runWords, fun s es => runWords_map_encode es s⟩
  have hrun := run_eq_runWords hv hin
  rwa [List.length_map, runWords_map_encode] at hrun

end Sys2Proof.Machine

/-! SUPPORT. The outputs right after a RESET, the window of registers, the read of a written frequency and of the hidden
count (spec/30_encoding.md R73 to R75, spec/20_memory.md R50, R59, spec/10_state.md R43); and the statements O12, O41,
O42 and O43. -/

namespace Sys2Proof.Machine

/-! ### The outputs after a RESET -/

/-- A board whose registers are the reset ones and whose pulses are 0 shows `M` and the midpoint (R30, R231). -/
theorem outputs_of_resetRegs {b : Board} (hv : b.st.cfg.valid = true) (ht : TableFormula b.st.cfg)
    (ha : b.st.afterReset = true) (hregs : b.st.regs = resetRegs b.st.cfg) (htick : b.tickPulse = false)
    (hretarget : b.retargetPulse = false) (p : PortIn) :
    ∃ o, outputs b p = some o ∧ o.dacA = b.st.cfg.M ∧ o.dacB = 2 ^ (b.st.cfg.R - 1) ∧
      o.tick = false ∧ o.retarget = false ∧ (cycleRead p = none → o.busRdata = 0#32) := by
  have hA : outA b.st = b.st.cfg.M := by rw [← outA_ofBuild hv ht, outA, outA, hregs]; rfl
  have hB : outB b.st = 2 ^ (b.st.cfg.R - 1) := by rw [← outB_ofBuild hv ht, outB, outB, hregs]; rfl
  exact ⟨_, outputs_of_afterReset ha p, hA, hB, htick, hretarget, fun hnone => busRdata_of_no_read hnone b.st⟩

/-- Settles O12: a reset cycle leaves the reset registers and both pulses at 0, as `boardOfBuild` has them. -/
theorem outputsAfterReset : Obligations.OutputsAfterReset := by
  refine ⟨fun b q hv ht hrst => ⟨_, cycle_reset hv hrst, ?_⟩, fun c p hv ht => ?_⟩
  · exact outputs_of_resetRegs (b := ⟨applyReset b.st, false, false⟩) hv ht rfl rfl rfl rfl
  · exact outputs_of_resetRegs (b := boardOfBuild c) hv ht rfl rfl rfl rfl p

/-! ### Reads -/

/-- Settles O41: after the write the frequency is the clamped word, and a read shows it. -/
theorem readAfterWriteSeesClamp : Obligations.ReadAfterWriteSeesClamp := by
  intro s d hv
  obtain ⟨t, ht⟩ := exec_completes (.wrFreq d) s
  exact ⟨t, readReg .freq t, t.regs.freq, ht, exec_readEvent .freq t, by simp [regValue], exec_wrFreq_freq hv ht⟩

/-- No register's value depends on the count of strobes (R43). -/
theorem regValue_tcnt (r : RegName) (s : State) (k : Word) :
    regValue r { s with regs := { s.regs with tcnt := k } } = regValue r s := by
  cases r <;> rfl

/-- Settles O42: a read shows the register's value alone. -/
theorem hiddenCountIsUnreadable : Obligations.HiddenCountIsUnreadable := by
  intro r s k
  refine ⟨_, _, exec_readEvent r s, exec_readEvent r _, ?_⟩
  rw [newObs_readReg, newObs_readReg]
  exact congrArg (fun v => [Obs.read r v]) (regValue_tcnt r s k).symm

/-! ### The window -/

theorem byteAddr_lt (r : RegName) : byteAddr r < 32 := by
  have := (indexOfReg r).isLt
  rw [byteAddr]
  omega

/-- The byte address of a register leads back to it. -/
@[simp] theorem regAt_byteAddr (r : RegName) : regAt (byteAddr r) = some r := by
  rw [regAt, if_pos ⟨Nat.mul_mod_right 4 _, byteAddr_lt r⟩, byteAddr, Nat.mul_div_cancel_left _ (by decide),
    BitVec.ofNat_toNat, BitVec.setWidth_eq, regOfIndex_indexOfReg]

/-- No other address has a register (R50, R57). -/
theorem eq_byteAddr_of_regAt {a : Nat} {r : RegName} (h : regAt a = some r) : a = byteAddr r := by
  obtain ⟨⟨hmul, hlt⟩, hr⟩ := Option.ite_none_right_eq_some.mp h
  rw [← Option.some.inj hr, byteAddr, indexOfReg_regOfIndex, BitVec.toNat_ofNat]
  omega

/-- Settles O43: the address and the index lead to each other, and both spellings name the register there. -/
theorem windowOfEightWords : Obligations.WindowOfEightWords := by
  refine ⟨fun a r => ⟨eq_byteAddr_of_regAt, ?_⟩, fun r => ⟨rfl, ?_⟩, fun r v => ⟨?_, ?_⟩⟩
  · rintro rfl
    exact regAt_byteAddr r
  · have := byteAddr_lt r
    rw [byteAddr] at *
    omega
  · simp [memRead]
  · simp [memWrite]

end Sys2Proof.Machine

/-! SUPPORT. The count started anew, ticks under a fair time base, and the count of retargets (spec/41_sampler.md R124,
spec/70_reset_and_hazards.md R244, spec/10_state.md R29); and the statements O20, O21 and O31. -/

namespace Sys2Proof.Machine

/-! ### The first tick after a RESET or a retarget -/

/-- A RESET and a write that changes the frequency start the count anew and show no sample (R124). -/
theorem exec_restarts_count {i : Instr} {s u : State} (hv : s.cfg.valid = true)
    (hi : i = .reset ∨ ∃ d, i = .wrFreq d ∧ clampFreq s.cfg d ≠ (s.regs.freq.toNat : Int))
    (h : exec i s = .next u) :
    u.regs.tcnt.toNat = 0 ∧ u.trace = s.trace ++ newObs s u ∧ samplesOf (newObs s u) = [] := by
  obtain rfl | ⟨d, rfl, hne⟩ := hi
  · obtain rfl := Host.Outcome.next.inj ((exec_reset s).symm.trans h)
    simp [newObs]
  · obtain rfl := Host.Outcome.next.inj ((exec_wrFreq_of_clamp_ne hv hne).symm.trans h)
    simp [newObs]

/-- Settles O20: from a count of 0 the samples of a quiet run are its strobes over the period. -/
theorem firstTickAFullPeriodLater : Obligations.FirstTickAFullPeriodLater := by
  intro s i hs hi
  obtain ⟨u, hexec⟩ := exec_completes i s
  refine ⟨u, hexec, fun es hq => ?_⟩
  obtain ⟨hzero, htrace, hnone⟩ := exec_restarts_count hs.1 hi hexec
  obtain ⟨t, hrun, hcount⟩ := runEvents_counted (exec_keeps_live hs hexec) hq
  have hsamples : samplesOf (newObs s t) = samplesOf (newObs u t) := by
    rw [newObs_trans htrace hcount.ticked.trace, samplesOf_append, hnone, List.nil_append]
  have hlen := hcount.ticked.length_samples
  rw [hzero, Nat.zero_add, ← hsamples] at hlen
  have htake : takeEvent i s = .next u := (takeEvent_running hs.1 hs.2.1 i).trans hexec
  refine ⟨t, (runEvents_cons htake es).trans hrun, fun hlt => ?before, fun heq => ?atPeriod⟩
  case before =>
    rw [Nat.div_eq_of_lt hlt] at hlen
    exact List.length_eq_zero_iff.mp hlen
  case atPeriod =>
    obtain ⟨-, -, -, hpos⟩ := live_freq_period (exec_keeps_live hs hexec)
    rw [hlen, heq, Nat.div_self hpos]

/-! ### Fairness -/

/-- A run only adds to the observation (R16). -/
theorem runEvents_trace {es : List Instr} {s t : State} (h : runEvents es s = .next t) :
    t.trace = s.trace ++ newObs s t := by
  obtain ⟨new, hnew⟩ : ∃ new, t.trace = s.trace ++ new :=
    runEvents_keeps (P := fun u => ∃ new, u.trace = s.trace ++ new)
      (fun ⟨old, hold⟩ hi => by
        obtain ⟨-, -, -, new, hnew, -⟩ := everyEventFrame _ _ _ hi
        exact ⟨old ++ new, by rw [hnew, hold, List.append_assoc]⟩)
      ⟨[], (List.append_nil _).symm⟩ h
  rw [newObs_of_append hnew, hnew]

/-- The events of an infinite sequence from the `m`-th on. -/
def eventsFrom (w : Nat → Instr) (m n : Nat) : List Instr := firstEvents (fun k => w (m + k)) n

theorem firstEvents_add (w : Nat → Instr) (m n : Nat) :
    firstEvents w (m + n) = firstEvents w m ++ eventsFrom w m n := by
  rw [firstEvents, List.range_add, List.map_append, List.map_map]
  rfl

theorem eventsFrom_succ (w : Nat → Instr) (m n : Nat) : eventsFrom w m (n + 1) = eventsFrom w m n ++ [w (m + n)] := by
  rw [eventsFrom, firstEvents, List.range_succ, List.map_append]
  rfl

theorem strobeCount_append (es fs : List Instr) : strobeCount (es ++ fs) = strobeCount es + strobeCount fs :=
  List.count_append

/-- Under a fair time base every number of strobes comes after any point (R244). -/
theorem exists_strobeCount_ge {w : Nat → Instr} (hw : FairStrobes w) (m k : Nat) :
    ∃ n, k ≤ strobeCount (eventsFrom w m n) := by
  induction k with
  | zero => exact ⟨0, Nat.zero_le _⟩
  | succ k ih =>
    obtain ⟨n, hn⟩ := ih
    obtain ⟨j, hj, hstrobe⟩ := hw (m + n)
    obtain ⟨a, rfl⟩ := Nat.exists_eq_add_of_le hj
    rw [Nat.add_assoc] at hstrobe
    refine ⟨n + (a + 1), ?_⟩
    rw [eventsFrom, firstEvents_add, eventsFrom_succ, hstrobe, strobeCount_append, strobeCount_append, ← eventsFrom,
      ← Nat.add_assoc]
    exact Nat.succ_le_succ (hn.trans (Nat.le_add_right _ _))

/-- Settles O21: a fair sequence has `k` periods of strobes after the last retarget, and a quiet run ticks in each. -/
theorem fairStrobesKeepTicking : Obligations.FairStrobesKeepTicking := by
  intro s u w m hs hw hrun hquiet k
  have hu : Live u := runEvents_keeps_live hs hrun
  obtain ⟨n, hn⟩ := exists_strobeCount_ge hw m (k * u.regs.period.toNat)
  have hq : (eventsFrom w m n).all (quiet u.cfg u.regs.freq) = true := by
    simp only [eventsFrom, firstEvents, List.all_map, List.all_eq_true, Function.comp_apply]
    exact fun j _ => hquiet (m + j) (Nat.le_add_right m j)
  obtain ⟨t, hrest, hcount⟩ := runEvents_counted hu hq
  refine ⟨m + n, t, Nat.le_add_right m n, ?run, ?ticks⟩
  case run => rw [firstEvents_add, runEvents_append hrun, hrest]
  case ticks =>
    obtain ⟨-, -, -, hpos⟩ := live_freq_period hu
    have hlen := hcount.ticked.length_samples
    have hk : k ≤ (samplesOf (newObs u t)).length := by
      rw [hlen, Nat.le_div_iff_mul_le hpos]
      omega
    rw [newObs_trans (runEvents_trace hrun) hcount.ticked.trace, samplesOf_append, List.length_append]
    omega

/-! ### The count of retargets -/

/-- Between the two states no RESET came, and `retargets` counted the retargets shown, modulo `2^32` (R29). -/
structure CountsRetargets (s t : State) : Prop where
  trace : t.trace = s.trace ++ newObs s t
  count : t.regs.retargets.toNat = (s.regs.retargets.toNat + (retargetsOf (newObs s t)).length) % 2 ^ 32

theorem CountsRetargets.of_none {s t : State} (htrace : t.trace = s.trace ++ newObs s t)
    (hnone : retargetsOf (newObs s t) = []) (hsame : t.regs.retargets = s.regs.retargets) : CountsRetargets s t :=
  ⟨htrace, by rw [hsame, hnone, List.length_nil, Nat.add_zero, Nat.mod_eq_of_lt s.regs.retargets.isLt]⟩

theorem CountsRetargets.refl (s : State) : CountsRetargets s s := .of_none (by simp [newObs]) (by simp [newObs]) rfl

theorem CountsRetargets.trans {s t u : State} (h : CountsRetargets s t) (h' : CountsRetargets t u) :
    CountsRetargets s u := by
  have hobs := newObs_trans h.trace h'.trace
  refine ⟨?trace, ?count⟩
  case trace => rw [hobs, ← List.append_assoc, ← h.trace, h'.trace]
  case count => rw [h'.count, h.count, hobs, retargetsOf_append, List.length_append, Nat.mod_add_mod, Nat.add_assoc]

theorem exec_countsRetargets {i : Instr} {s t : State} (hi : i ≠ .reset) (h : exec i s = .next t) :
    CountsRetargets s t := by
  obtain ⟨r, -, rfl⟩ | ⟨r, d, -, -, rfl⟩ | ⟨d, -, -, rfl⟩ | ⟨d, -, -, rfl⟩ | ⟨-, -, rfl⟩ | ⟨-, -, rfl⟩ | ⟨hreset, -⟩ :=
    exec_cases h
  · exact .of_none (by simp) (by simp) rfl
  · exact .refl t
  · exact ⟨by simp [newObs], by simp [newObs]⟩
  · exact .refl t
  · exact .of_none (by simp [newObs]) (by simp [newObs]) rfl
  · exact .of_none (by simp [newObs]) (by simp [newObs]) rfl
  · exact absurd hreset hi

theorem runEvents_countsRetargets {es : List Instr} {s t : State} (hes : Instr.reset ∉ es)
    (h : runEvents es s = .next t) : CountsRetargets s t := by
  induction es generalizing s with
  | nil =>
    obtain ⟨-, rfl⟩ := runEvents_nil_next h
    exact .refl t
  | cons i es ih =>
    obtain ⟨u, htake, hrest⟩ := runEvents_cons_next h
    obtain ⟨-, -, hexec⟩ := takeEvent_next htake
    exact (exec_countsRetargets (List.ne_of_not_mem_cons hes).symm hexec).trans
      (ih (List.not_mem_of_not_mem_cons hes) hrest)

/-- Settles O31: RESET clears the register and shows nothing, and the events behind it count. -/
theorem retargetsRegisterCountsRetargets : Obligations.RetargetsRegisterCountsRetargets := by
  intro s t es hes h
  obtain ⟨u, htake, hrest⟩ := runEvents_cons_next h
  obtain ⟨-, -, hexec⟩ := takeEvent_next htake
  obtain rfl : applyReset s = u := Host.Outcome.next.inj hexec
  have hcount := (runEvents_countsRetargets hes hrest).count
  rw [applyReset_regs, resetRegs_retargets, BitVec.toNat_zero, Nat.zero_add] at hcount
  exact hcount

end Sys2Proof.Machine

/-! SUPPORT. Ties of the sine table (spec/40_sine_table.md R107), and the statement O53. -/

namespace Sys2Proof.Machine

theorem exactValue_eq (c : Config) (i : ℕ) : exactValue c i = (1 + Real.sin (entryAngle c i)) * c.M / 2 := by
  rw [exactValue, entryAngle_natCast]

/-- At both midpoints the sine is 0, and the exact value is `M / 2` (R104). -/
theorem exactValue_of_mid {c : Config} (h : c.valid = true) {i : ℕ} (hi : i = 0 ∨ i = c.N / 2) :
    exactValue c i = (c.M : ℝ) / 2 := by
  have hsin : Real.sin (entryAngle c i) = 0 := by
    obtain rfl | rfl := hi
    · simp [entryAngle]
    · rw [entryAngle_half h, Real.sin_pi]
  rw [exactValue_eq, hsin, add_zero, one_mul]

/-- Half above the midpoint lies the integer `2^(R-1)`. -/
theorem half_M_add_half {c : Config} (h : c.valid = true) : (c.M : ℝ) / 2 + 1 / 2 = ((2 ^ (c.R - 1) : ℕ) : ℤ) := by
  have hM : (c.M : ℝ) + 1 = 2 * (2 ^ (c.R - 1) : ℕ) := by exact_mod_cast M_add_one h
  rw [Int.cast_natCast]
  linarith

/-- Rounding half up moves a value by less than one half, but for a tie (R101). -/
theorem abs_sub_floor_half_lt {x : ℝ} (hx : ¬ ∃ n : ℤ, x + 1 / 2 = n) : |x - ⌊x + 1 / 2⌋| < 1 / 2 := by
  have hne : (⌊x + 1 / 2⌋ : ℝ) ≠ x + 1 / 2 := fun e => hx ⟨_, e.symm⟩
  have hlo := lt_of_le_of_ne (Int.floor_le (x + 1 / 2)) hne
  have hhi := Int.lt_floor_add_one (x + 1 / 2)
  exact abs_lt.mpr ⟨by linarith, by linarith⟩

/-- Settles O53: a tie makes the sine 0, which it is at the midpoints only. -/
theorem tableTiesOnlyAtMidpoints : Obligations.TableTiesOnlyAtMidpoints := by
  intro c i h ht hi
  have htie : (∃ n : ℤ, exactValue c i + 1 / 2 = n) ↔ i = 0 ∨ i = c.N / 2 := by
    refine ⟨fun ⟨n, hn⟩ => ?_, fun hmid => ⟨_, by rw [exactValue_of_mid h hmid, half_M_add_half h]⟩⟩
    rw [exactValue_eq] at hn
    exact index_of_sin_entryAngle_eq_zero hi (sin_eq_zero_of_tie h hn)
  refine ⟨?odd, htie, fun hmid => ⟨exactValue_of_mid h hmid, ?midpoint⟩, fun hoff => ?nearest⟩
  case odd =>
    have := M_add_one h
    omega
  case midpoint =>
    obtain rfl | rfl := hmid
    · exact code_zero h ht
    · exact code_half h ht
  case nearest =>
    have hnotie := mt htie.mp (not_or.mpr hoff)
    have hcode : (code c i : ℝ) = ⌊exactValue c i + 1 / 2⌋ := by exact_mod_cast ht i hi
    rw [hcode]
    exact abs_sub_floor_half_lt hnotie

end Sys2Proof.Machine

/-! SUPPORT. The assembler's lines (spec/30_encoding.md R83, R84): the words of items, the shape of a group, and the
rounding of `setf`; and the statement O55. -/

namespace Sys2Proof.Machine

open Sys2Proof.Asm

/-! ### Items -/

/-- An admitted write gives its register's word with its immediate as DATA (R83). -/
theorem assembleLine_wr (g : GroupReading) (r : RegName) {imm : Imm} (h : imm.ok = true) :
    assembleLine g (.item (.wr r imm)) = some [0x2#4 ++ 0#1 ++ indexOfReg r ++ immWord imm] := by
  rw [assembleLine_item, Item.ok, if_pos h, itemEvent, encode_writeEvent]
  rfl

theorem assembleLine_wr_refused (g : GroupReading) (r : RegName) {imm : Imm} (h : imm.ok = false) :
    assembleLine g (.item (.wr r imm)) = none := by
  rw [assembleLine_item, Item.ok, h]
  rfl

theorem assembleLine_rd (g : GroupReading) (r : RegName) :
    assembleLine g (.item (.rd r)) = some [0x1#4 ++ 0#1 ++ indexOfReg r ++ 0#32] := by
  rw [assembleLine_item, Item.ok, if_pos rfl, itemEvent, encode_readEvent]
  rfl

/-- A signed value that fits 32 bits is stored whole (R11). -/
theorem uint32_toInt {v : Int} (h0 : -2147483648 ≤ v) (h1 : v ≤ 2147483647) : (uint32 v).toInt = v :=
  BitVec.toInt_ofInt_eq_self (by decide) (by omega) (by omega)

/-! ### Groups -/

/-- The three parts of a group that is no reset: an optional read, an optional strobe, an optional write (R83). -/
def GroupParts (rd st wr : List Item) : Prop :=
  (rd = [] ∨ ∃ r, rd = [.rd r]) ∧ (st = [] ∨ st = [.strobe]) ∧ (wr = [] ∨ ∃ r v, wr = [.wr r v])

theorem groupOrderOk_of_parts {rd st wr : List Item} (h : GroupParts rd st wr) (hne : rd ++ st ++ wr ≠ []) :
    groupOrderOk (rd ++ st ++ wr) = true := by
  obtain ⟨rfl | ⟨r, rfl⟩, rfl | rfl, rfl | ⟨q, v, rfl⟩⟩ := h
  · exact absurd rfl hne
  all_goals rfl

/-- A group in the order of R72 is a reset alone or made of the three parts. -/
theorem parts_of_groupOrderOk {is : List Item} (h : groupOrderOk is = true) :
    is = [.reset] ∨ ∃ rd st wr, is = rd ++ st ++ wr ∧ is ≠ [] ∧ GroupParts rd st wr := by
  rw [groupOrderOk.eq_def] at h
  split at h
  case h_1 => cases h
  case h_2 i =>
    cases i with
    | reset => exact .inl rfl
    | strobe => exact .inr ⟨[], [.strobe], [], rfl, by simp, .inl rfl, .inr rfl, .inl rfl⟩
    | rd r => exact .inr ⟨[.rd r], [], [], rfl, by simp, .inr ⟨r, rfl⟩, .inl rfl, .inl rfl⟩
    | wr r v => exact .inr ⟨[], [], [.wr r v], rfl, by simp, .inl rfl, .inl rfl, .inr ⟨r, v, rfl⟩⟩
  case h_3 r => exact .inr ⟨[.rd r], [.strobe], [], rfl, by simp, .inr ⟨r, rfl⟩, .inr rfl, .inl rfl⟩
  case h_4 r q v => exact .inr ⟨[.rd r], [], [.wr q v], rfl, by simp, .inr ⟨r, rfl⟩, .inl rfl, .inr ⟨q, v, rfl⟩⟩
  case h_5 q v => exact .inr ⟨[], [.strobe], [.wr q v], rfl, by simp, .inl rfl, .inr rfl, .inr ⟨q, v, rfl⟩⟩
  case h_6 r q v =>
    exact .inr ⟨[.rd r], [.strobe], [.wr q v], rfl, by simp, .inr ⟨r, rfl⟩, .inr rfl, .inr ⟨q, v, rfl⟩⟩
  case h_7 => cases h

/-- Of the three parts, the read and the write are the bus accesses (R83). -/
theorem groupOneAccess_parts {rd st wr : List Item} (h : GroupParts rd st wr) :
    groupOneAccess (rd ++ st ++ wr) = true ↔ rd = [] ∨ wr = [] := by
  obtain ⟨rfl | ⟨r, rfl⟩, rfl | rfl, rfl | ⟨q, v, rfl⟩⟩ := h <;> simp [groupOneAccess]

theorem groupOk_iff (g : GroupReading) (is : List Item) :
    groupOk g is = true ↔ groupOrderOk is = true ∧ (g = .oneAccess → groupOneAccess is = true) := by
  cases g <;> simp [groupOk]

/-- The groups admitted (R83, both readings). -/
theorem groupOk_iff_shape (g : GroupReading) (is : List Item) :
    groupOk g is = true ↔
      is = [.reset] ∨ ∃ rd st wr, is = rd ++ st ++ wr ∧ is ≠ [] ∧ GroupParts rd st wr ∧
        (g = .oneAccess → rd = [] ∨ wr = []) := by
  rw [groupOk_iff]
  constructor
  · rintro ⟨horder, haccess⟩
    obtain rfl | ⟨rd, st, wr, rfl, hne, hparts⟩ := parts_of_groupOrderOk horder
    · exact .inl rfl
    · exact .inr ⟨rd, st, wr, rfl, hne, hparts, fun hg => (groupOneAccess_parts hparts).mp (haccess hg)⟩
  · rintro (rfl | ⟨rd, st, wr, rfl, hne, hparts, haccess⟩)
    · exact ⟨rfl, fun _ => by decide⟩
    · exact ⟨groupOrderOk_of_parts hparts hne, fun hg => (groupOneAccess_parts hparts).mpr (haccess hg)⟩

/-- The words of a list of items are those of the items alone, all admitted (R83). -/
theorem map_assembleLine_item_iff (g : GroupReading) (is : List Item) (ws : List EventWord) :
    is.map (fun i => assembleLine g (.item i)) = ws.map (fun w => some [w]) ↔
      (∀ i ∈ is, i.ok = true) ∧ is.map (fun i => encode (itemEvent i)) = ws := by
  induction is generalizing ws with
  | nil => cases ws <;> simp
  | cons i is ih =>
    cases ws with
    | nil => simp
    | cons w ws =>
      rw [List.map_cons, List.map_cons, List.map_cons, List.cons.injEq, List.cons.injEq, ih, List.forall_mem_cons]
      simp only [assembleLine_item, Option.ite_none_right_eq_some, Option.some.injEq, List.cons.injEq, and_true]
      tauto

/-- A group gives its items' words, each admitted alone (R83). -/
theorem assembleLine_group_iff (g : GroupReading) (is : List Item) (ws : List EventWord) :
    assembleLine g (.group is) = some ws ↔
      groupOk g is = true ∧ is.map (fun i => assembleLine g (.item i)) = ws.map (fun w => some [w]) := by
  rw [assembleLine_group, map_assembleLine_item_iff]

/-! ### setf -/

/-- The digits of a decimal with its sign. -/
def signedDigits (x : Decimal) : Int := if x.negative then -(x.digits : Int) else x.digits

theorem setfRaw_eq (x : Decimal) :
    setfRaw x = (2 * signedDigits x * 65536 + 10 ^ x.scale) / ((2 * 10 ^ x.scale : ℕ) : Int) := by
  push_cast
  rfl

/-- The integer quotient of `setfRaw` is the floor of R84's rational formula. -/
theorem setfRaw_eq_floor (x : Decimal) : setfRaw x = ⌊(signedDigits x : Rat) / 10 ^ x.scale * 65536 + 1 / 2⌋ := by
  have hquot : (signedDigits x : Rat) / 10 ^ x.scale * 65536 + 1 / 2 =
      ((2 * signedDigits x * 65536 + 10 ^ x.scale : Int) : Rat) / ((2 * 10 ^ x.scale : ℕ) : Rat) := by
    push_cast
    field_simp
  rw [hquot, Rat.floor_intCast_div_natCast, setfRaw_eq]

theorem signedDigits_cast (x : Decimal) :
    (signedDigits x : Rat) = if x.negative then -(x.digits : Rat) else x.digits := by
  rw [signedDigits]
  split <;> simp

theorem assembleLine_setf (g : GroupReading) {x : Decimal} (h0 : -2147483648 ≤ setfRaw x)
    (h1 : setfRaw x ≤ 2147483647) :
    assembleLine g (.setf x) = some [encode (.wrFreq (uint32 (setfRaw x)))] := by
  rw [assembleLine, setfWord, if_pos ⟨h0, h1⟩]
  rfl

theorem assembleLine_setf_refused (g : GroupReading) {x : Decimal}
    (h : ¬ (-2147483648 ≤ setfRaw x ∧ setfRaw x ≤ 2147483647)) : assembleLine g (.setf x) = none := by
  rw [assembleLine, setfWord, if_neg h]
  rfl

theorem assembleLine_strobes (g : GroupReading) {n : Nat} (h : 1 ≤ n) :
    assembleLine g (.strobes n) = some (List.replicate n 0x4000000000#40) :=
  if_pos h

/-! ### The statement -/

/-- Settles O55: each line is the lemma about its kind. -/
theorem assemblerLines : Obligations.AssemblerLines := by
  intro g
  refine ⟨rfl, rfl, assembleLine_rd g, fun r v hv => ?unsigned, fun r v hv1 hv2 => ?negative,
    fun r v hv => ?tooLarge, fun r v hv => ?outOfRange, fun is ws => ?group, fun r v => ?misordered,
    fun n => assembleLine_strobes g, rfl, fun x => ?rounds, fun x h0 h1 => ?setf, fun x hx => ?setfRefused, rfl,
    ?hz50, ?hz12⟩
  case unsigned =>
    have hword : (BitVec.ofNat 32 v).toNat = v := by
      rw [BitVec.toNat_ofNat]
      omega
    have hle : v ≤ 4294967295 := hv
    exact ⟨_, hword, assembleLine_wr g r (imm := .hex v) (decide_eq_true hle),
      assembleLine_wr g r (imm := .dec v) (decide_eq_true hle)⟩
  case negative =>
    have hok : (Imm.neg v).ok = true := by
      simp only [Imm.ok, Bool.and_eq_true, decide_eq_true_eq]
      omega
    exact ⟨_, uint32_toInt (v := -(v : Int)) (by omega) (by omega), assembleLine_wr g r hok⟩
  case tooLarge =>
    have hgt : ¬ v ≤ 4294967295 := by omega
    exact ⟨assembleLine_wr_refused g r (imm := .hex v) (decide_eq_false hgt),
      assembleLine_wr_refused g r (imm := .dec v) (decide_eq_false hgt)⟩
  case outOfRange =>
    refine assembleLine_wr_refused g r (imm := .neg v) ?_
    simp only [Imm.ok, Bool.and_eq_false_iff, decide_eq_false_iff_not]
    omega
  case group =>
    rw [assembleLine_group_iff, groupOk_iff_shape]
    simp only [GroupParts, and_assoc]
  case misordered => refine ⟨?_, ?_, ?_, ?_, ?_, ?_⟩ <;> exact assembleLine_misordered g rfl
  case rounds => rw [setfRaw_eq_floor, signedDigits_cast]
  case setf =>
    have hlo : -2147483648 ≤ setfRaw x := h0
    have hhi : setfRaw x ≤ 2147483647 := h1
    exact ⟨_, uint32_toInt hlo hhi, assembleLine_setf g hlo hhi⟩
  case setfRefused => exact assembleLine_setf_refused g (by omega)
  case hz50 => exact assembleLine_setf g (x := ⟨false, 50, 0⟩) (by decide) (by decide)
  case hz12 => exact assembleLine_setf g (x := ⟨false, 1223, 2⟩) (by decide) (by decide)

end Sys2Proof.Machine
